-- ==== Sys2Proof/Word.lean ====
section
/-! DEFINITION. The word type: every register, memory cell, opcode and operand is one unsigned byte
(spec/00_scope.md section 5, spec/10_state.md R20, spec/20_memory.md R44). -/

namespace Sys2Proof

/-- A byte: an unsigned value in `[0, 255]` (00_scope.md section 5). Arithmetic on it is modulo 256 (42_alu.md R113). -/
abbrev Byte := BitVec 8

end Sys2Proof
end

