-- ==== Sys2Proof/Config.lean ====
section
/-! DEFINITION. What is fixed for one engine: the fixed parameters of spec/00_scope.md R9, and OPCODE_VALUE, "the only
parameter a model takes as an argument" (R10). No instruction leaves a value undefined, so there is no free value here. -/

namespace Sys2Proof

/-- MEM_SIZE (R9): the number of memory cells. -/
abbrev Config.memSize : Nat := 256

/-- NREG (R9): the number of registers. -/
abbrev Config.nreg : Nat := 8

/-- SP_INDEX (R9): the register that is the stack pointer. -/
abbrev Config.spIndex : Fin Config.nreg := 7

/-- SP_RESET (R9). -/
abbrev Config.spReset : Byte := 0xF4#8

/-- PC_RESET (R9). -/
abbrev Config.pcReset : Nat := 0

/-- LOAD_BASE (R9): the first address the loader writes. -/
abbrev Config.loadBase : Nat := 0

/-- MAX_PROGRAM (R9): the longest accepted program image, in bytes. -/
abbrev Config.maxProgram : Nat := 256

/-- The six mnemonics of the fixed set (00_scope.md R2): what the dispatch table's entries name. -/
inductive Opcode where
  | hlt | ldi | prn | mul | push | pop
  deriving DecidableEq, Repr

/-- OPCODE_VALUE (R10): the byte value of each mnemonic. -/
structure OpcodeValue where
  hlt  : Byte
  ldi  : Byte
  prn  : Byte
  mul  : Byte
  push : Byte
  pop  : Byte
  deriving DecidableEq, Repr

/-- `OPC(m)` (00_scope.md section 5). -/
def OpcodeValue.byte (v : OpcodeValue) : Opcode → Byte
  | .hlt => v.hlt
  | .ldi => v.ldi
  | .prn => v.prn
  | .mul => v.mul
  | .push => v.push
  | .pop => v.pop

/-- The six bytes of a map, in the order of the spec's tables. -/
def OpcodeValue.bytes (v : OpcodeValue) : List Byte :=
  [v.hlt, v.ldi, v.prn, v.mul, v.push, v.pop]

/-- What R10 asks of a map: pairwise distinct bytes, and no mnemonic at 0xFF. -/
abbrev OpcodeValue.Legal (v : OpcodeValue) : Prop :=
  v.bytes.Nodup ∧ 0xFF#8 ∉ v.bytes

end Sys2Proof
end

