-- ==== Sys2Proof/Syntax.lean ====
section
/-! DEFINITION. The instructions as syntax: one constructor per row of spec/opcode_table.json. An operand is the whole
operand byte (spec/30_encoding.md R63): a register operand keeps its byte, also when it is 8 to 255, since such an index
is not reduced and makes the handler raise RegisterOutOfRange. -/

namespace Sys2Proof

/-- The six-instruction set (00_scope.md R2, 30_encoding.md R68). -/
inductive Instr where
  /-- HLT, format N (41_basic.md R100). -/
  | hlt
  /-- LDI register, immediate: format RI (41_basic.md R101). -/
  | ldi (r i : Byte)
  /-- PRN register: format R (41_basic.md R102). -/
  | prn (r : Byte)
  /-- MUL register_a, register_b: format RR (42_alu.md R112). -/
  | mul (a b : Byte)
  /-- PUSH register: format R (43_stack.md R120). -/
  | push (r : Byte)
  /-- POP register: format R (43_stack.md R121). -/
  | pop (r : Byte)
  deriving DecidableEq, Repr

end Sys2Proof
end

