-- ==== Sys2Proof/Decode.lean ====
section
/-! DEFINITION. The dispatch table, the decoder (total on any bytes, rejecting by name), the encoder, and the assembly
spelling: spec/30_encoding.md, and R85 of spec/40_execution_loop.md. -/

namespace Sys2Proof

/-- The default assignment of 30_encoding.md R62. PRESUMED (unsafe): the spec itself marks these values as general
knowledge, not in its source (D1, G2); notes/assumptions/1.md. `step` and `decodeTableWord` run at this map; every
definition below them takes the map as an argument. -/
def OpcodeValue.default : OpcodeValue where
  hlt  := 0x01#8
  ldi  := 0x82#8
  prn  := 0x47#8
  mul  := 0xA2#8
  push := 0x45#8
  pop  := 0x46#8

/-- Why a list of bytes holds no whole instruction. -/
inductive DecodeError where
  /-- There is no opcode byte: the fetch address is outside memory (40_execution_loop.md R82). -/
  | noOpcode
  /-- The dispatch table holds no entry for the opcode byte (30_encoding.md R66). -/
  | unknownOpcode (opc : Byte)
  /-- Operand byte `k` (1 or 2) of the instruction is not there (40_execution_loop.md R83). -/
  | missingOperand (opc : Byte) (k : Nat)
  deriving DecidableEq, Repr

/-- The width in bytes, fixed by the opcode alone (30_encoding.md R60). -/
def Opcode.width : Opcode → Nat
  | .hlt => 1
  | .ldi => 3
  | .prn => 2
  | .mul => 3
  | .push => 2
  | .pop => 2

/-- The mnemonic an instruction carries. -/
def Instr.opcode : Instr → Opcode
  | .hlt => .hlt
  | .ldi _ _ => .ldi
  | .prn _ => .prn
  | .mul _ _ => .mul
  | .push _ => .push
  | .pop _ => .pop

/-- The operand bytes in the order they lie in memory (30_encoding.md R61). -/
def Instr.operands : Instr → List Byte
  | .hlt => []
  | .ldi r i => [r, i]
  | .prn r => [r]
  | .mul a b => [a, b]
  | .push r => [r]
  | .pop r => [r]

/-- The dispatch table (40_execution_loop.md R85): opcode byte to handler, six entries and no other. -/
def dispatchTable (v : OpcodeValue) : List (Byte × Opcode) :=
  [(v.hlt, .hlt), (v.ldi, .ldi), (v.prn, .prn), (v.mul, .mul), (v.push, .push), (v.pop, .pop)]

/-- `resolve(opc)` (40_execution_loop.md R85): a lookup of the full byte; no sub-field is read (30_encoding.md R65). -/
def resolve (v : OpcodeValue) (opc : Byte) : Option Opcode :=
  (dispatchTable v).lookup opc

/-- The one operand byte of format R. -/
def takeOne (opc : Byte) (mk : Byte → Instr) : List Byte → Except DecodeError (Instr × List Byte)
  | [] => .error (.missingOperand opc 1)
  | r :: rest => .ok (mk r, rest)

/-- The two operand bytes of formats RI and RR, the first at the lower address (20_memory.md R45). -/
def takeTwo (opc : Byte) (mk : Byte → Byte → Instr) : List Byte → Except DecodeError (Instr × List Byte)
  | [] => .error (.missingOperand opc 1)
  | [_] => .error (.missingOperand opc 2)
  | a :: b :: rest => .ok (mk a b, rest)

/-- The operands of a resolved opcode (30_encoding.md R61, R68). -/
def takeOperands (m : Opcode) (opc : Byte) (rest : List Byte) : Except DecodeError (Instr × List Byte) :=
  match m with
  | .hlt => .ok (.hlt, rest)
  | .ldi => takeTwo opc .ldi rest
  | .prn => takeOne opc .prn rest
  | .mul => takeTwo opc .mul rest
  | .push => takeOne opc .push rest
  | .pop => takeOne opc .pop rest

/-- The instruction at the head of a list of bytes and the bytes after it (30_encoding.md R60, R65, R67). -/
def decode (v : OpcodeValue) : List Byte → Except DecodeError (Instr × List Byte)
  | [] => .error .noOpcode
  | opc :: rest =>
    match resolve v opc with
    | none => .error (.unknownOpcode opc)
    | some m => takeOperands m opc rest

/-- The bytes of an instruction, the opcode byte at the lowest address (30_encoding.md R61). -/
def encode (v : OpcodeValue) : Instr → List Byte
  | .hlt => [v.hlt]
  | .ldi r i => [v.ldi, r, i]
  | .prn r => [v.prn, r]
  | .mul a b => [v.mul, a, b]
  | .push r => [v.push, r]
  | .pop r => [v.pop, r]

/-- The longest instruction, in bytes (30_encoding.md R60). -/
abbrev maxWidth : Nat := 3

/-- The bytes of a table word: bit 0 is the least significant bit of the FIRST byte, and the bits above `nbits` are 0. -/
def tableWordBytes (nbits w : Nat) : List Byte :=
  let u := w % 2 ^ nbits
  [BitVec.ofNat 8 u, BitVec.ofNat 8 (u / 2 ^ 8), BitVec.ofNat 8 (u / 2 ^ 16)]

/-- The instruction the decoder reads from a word numbered as spec/opcode_table.json numbers it, at the default
OPCODE_VALUE, which that table uses. -/
def decodeTableWord (nbits w : Nat) : Option Instr :=
  match decode .default (tableWordBytes nbits w) with
  | .ok (i, _) => some i
  | .error _ => none

/-- A register operand as `R<n>` (30_encoding.md R69; the spec's own spelling, D11). -/
def registerText (r : Byte) : String :=
  "R" ++ toString r.toNat

/-- The assembly spelling of an instruction (30_encoding.md R69). DESIGN CHOICE (safe): R69 admits a decimal or a `0x`
immediate and spells registers 0 to 7; the model prints decimal, and an index of 8 or more as `R<n>` too
(notes/assumptions/25.md). -/
def Instr.assembly : Instr → String
  | .hlt => "HLT"
  | .ldi r i => "LDI " ++ registerText r ++ ", " ++ toString i.toNat
  | .prn r => "PRN " ++ registerText r
  | .mul a b => "MUL " ++ registerText a ++ ", " ++ registerText b
  | .push r => "PUSH " ++ registerText r
  | .pop r => "POP " ++ registerText r

end Sys2Proof
end

