-- ==== Sys2Proof/Machine/State.lean ====
section
/-! DEFINITION. The complete state of the engine (spec/10_state.md R20), its value at reset (R160 of
spec/70_reset_and_hazards.md), and the reasons a step or the host interface stops. -/

namespace Sys2Proof.Machine

/-- The five kinds of the failure taxonomy (60_exceptions.md R130). -/
inductive Kind where
  | addressOutOfRange
  | registerOutOfRange
  | unsupportedOperation
  | unknownInstruction
  | programTooLarge
  deriving DecidableEq, Repr

/-- A diagnostic event, and equally a fault record (10_state.md R30, R31): a field that does not apply is `none`. -/
structure Event where
  /-- The condition. -/
  kind     : Kind
  /-- The value of `pc` when the step began. -/
  pc       : Nat
  /-- The fetched opcode byte; absent when the opcode fetch itself failed. -/
  opcode   : Option Byte
  /-- The out-of-range address (AddressOutOfRange only). -/
  address  : Option Nat
  /-- The out-of-range index, the whole operand byte (RegisterOutOfRange only). -/
  register : Option Byte
  deriving DecidableEq, Repr

/-- Memory as the cells that do not hold their reset content 0: addresses strictly rising, all below 256, no cell 0
(`Memory.wf` in Machine/Ops.lean). -/
abbrev Memory := List Host.Cell

/-- The state of the engine: 10_state.md R20, "and nothing else". -/
structure State where
  /-- The memory: 256 cells of 8 bits (R33). -/
  mem     : Memory
  /-- The register file (R21 to R23); `x[7]` is the stack pointer. -/
  x       : Vector Byte Config.nreg
  /-- The program counter: a natural number, never reduced modulo 256 (R24). -/
  pc      : Nat
  /-- The running flag, the only flag (R26, R27). -/
  running : Bool
  /-- The fault record (R31). -/
  fault   : Option Event
  /-- The output trace, oldest first (R29). -/
  out     : List Byte
  /-- The diagnostic trace, oldest first (R30). -/
  diag    : List Event
  /-- The bookkeeping bit `run` sets (R32). -/
  started : Bool
  deriving DecidableEq, Repr

/-- Construction (70_reset_and_hazards.md R160): every value here is the spec's (10_state.md R20). -/
def State.reset : State where
  mem     := []
  x       := #v[0, 0, 0, 0, 0, 0, 0, Config.spReset]
  pc      := Config.pcReset
  running := false
  fault   := none
  out     := []
  diag    := []
  started := false

/-- Why `step` has no next state. No instruction ends in one of these: a fatal condition of an instruction is a NEXT
state with its record in `fault` (60_exceptions.md R136). They name the states in which no step is enabled
(40_execution_loop.md R81). -/
inductive Fault where
  /-- Raised by `step` before `run`: `running` is false until `run` is invoked (10_state.md R26). Safe: the spec has no
  step there. -/
  | notStarted
  /-- Raised by `step` after HLT, the final state "halted" (40_execution_loop.md R88, 60_exceptions.md R147). Safe: the
  spec has no step there. -/
  | halted
  /-- Raised by `step` after a fatal condition, the final state "faulted" (40_execution_loop.md R88, 60_exceptions.md
  R136: "A state with `fault != none` has no step"). Safe: the spec has no step there. -/
  | faulted
  deriving DecidableEq, Repr

/-- What the model gives no meaning to. Only the host interface (Machine/Session.lean) answers with one of these; no
instruction does. -/
inductive Refusal where
  /-- An instruction rejected by name in Machine/Dispatch.lean; no arm of this model does so. Safe. -/
  | notModelled (mnemonic : String)
  /-- Raised by `Session.run` when a run was already started (40_execution_loop.md R80). Safe: towards unprovable (D12). -/
  | secondRun
  /-- Raised by `Session.run` after a load that failed with ProgramTooLarge (60_exceptions.md R137). Safe (D10). -/
  | runAfterFailedLoad
  /-- Raised by `Session.load` when a load was already made, failed or not (10_state.md R34, 60_exceptions.md R137).
  Safe: towards unprovable (D10). -/
  | secondLoad
  /-- Raised by `Session.load` after `run` (10_state.md R34). Safe: towards unprovable (D10). -/
  | loadAfterRun
  deriving DecidableEq, Repr

end Sys2Proof.Machine
end

