-- ==== Sys2Proof/Machine/Ops.lean ====
section
/-! DEFINITION. The named operations over memory, registers, traces and the fault record: spec/10_state.md,
spec/20_memory.md and spec/60_exceptions.md. -/

namespace Sys2Proof.Machine

/-- Cause codes in the order of the taxonomy (60_exceptions.md R130; the numbers are the spec's decision D19). -/
def Kind.code : Kind → Nat
  | .addressOutOfRange => 0
  | .registerOutOfRange => 1
  | .unsupportedOperation => 2
  | .unknownInstruction => 3
  | .programTooLarge => 4

/-- The class "fatal" of 60_exceptions.md R130: the first three kinds. -/
def Kind.fatal : Kind → Bool
  | .addressOutOfRange => true
  | .registerOutOfRange => true
  | .unsupportedOperation => true
  | .unknownInstruction => false
  | .programTooLarge => false

/-- What an unlisted cell holds: the reset content (10_state.md R33). -/
abbrev Memory.unlisted : Byte := 0#8

/-- The canonical form: addresses strictly rising and below 256, no entry equal to what an unlisted address reads as. -/
abbrev Memory.wf (m : Memory) : Prop :=
  m.Pairwise (fun p q => p.1 < q.1) ∧ ∀ p ∈ m, p.2 ≠ Memory.unlisted ∧ p.1 < Config.memSize

/-- The content of a cell, whether listed or not. -/
def Memory.cell : Memory → Nat → Byte
  | [], _ => Memory.unlisted
  | (k, b) :: m, a => if a = k then b else Memory.cell m a

/-- The list with one cell set, in canonical form again: a cell that takes its reset content is not listed. -/
def Memory.put : Memory → Nat → Byte → Memory
  | [], a, v => if v = Memory.unlisted then [] else [(a, v)]
  | (k, b) :: m, a, v =>
    if a < k then
      if v = Memory.unlisted then (k, b) :: m else (a, v) :: (k, b) :: m
    else if a = k then
      if v = Memory.unlisted then m else (a, v) :: m
    else (k, b) :: Memory.put m a v

/-- `read(address)` (20_memory.md R40): `none` is AddressOutOfRange. -/
def Memory.read (m : Memory) (a : Nat) : Option Byte :=
  if a < Config.memSize then some (m.cell a) else none

/-- `write(address, value)` (20_memory.md R41): `none` is AddressOutOfRange, with nothing stored. -/
def Memory.write (m : Memory) (a : Nat) (v : Byte) : Option Memory :=
  if a < Config.memSize then some (m.put a v) else none

/-- The bytes of an image at increasing addresses; bytes outside memory are not stored (10_state.md R34). -/
def Memory.writeBytes (m : Memory) : Nat → List Byte → Memory
  | _, [] => m
  | a, b :: bs => ((m.write a b).getD m).writeBytes (a + 1) bs

/-- The bytes at `a`, `a + 1`, … that exist, at most `n` of them. -/
def Memory.readBytes (m : Memory) : Nat → Nat → List Byte
  | 0, _ => []
  | n + 1, a =>
    match m.read a with
    | none => []
    | some b => b :: m.readBytes n (a + 1)

/-- `x[d]` for an index in range (10_state.md R21). -/
def State.reg (s : State) (d : Fin Config.nreg) : Byte :=
  s.x[d]

/-- `x[d] <- v` for an index in range (10_state.md R22); the value is a byte, so it is already truncated. -/
def State.setReg (s : State) (d : Fin Config.nreg) (v : Byte) : State :=
  { s with x := s.x.set d v }

/-- `SP` (10_state.md R23). -/
def State.sp (s : State) : Byte :=
  s.reg Config.spIndex

/-- The memory replaced. -/
def State.setMem (s : State) (m : Memory) : State :=
  { s with mem := m }

/-- `pc <- pc + w`: not reduced modulo anything (10_state.md R24, R25). -/
def State.advance (s : State) (w : Nat) : State :=
  { s with pc := s.pc + w }

/-- `emit_out(v)` (10_state.md R29). -/
def State.emitOut (s : State) (v : Byte) : State :=
  { s with out := s.out ++ [v] }

/-- `emit_diag(e)` (10_state.md R30). -/
def State.emitDiag (s : State) (e : Event) : State :=
  { s with diag := s.diag ++ [e] }

/-- The record of a condition of this step (10_state.md R30, R31): `pc` as the step began, and the fetched opcode byte,
which is the cell at `pc` (absent where there is none). -/
def State.record (s : State) (k : Kind) (address : Option Nat) (register : Option Byte) : Event where
  kind     := k
  pc       := s.pc
  opcode   := s.mem.read s.pc
  address  := address
  register := register

/-- `raise F(info)` (60_exceptions.md R136): the record goes to `fault` and to `diag`, and nothing else changes. A step
raises on the state it began with. -/
def State.raise (s : State) (k : Kind) (address : Option Nat) (register : Option Byte) : State :=
  let e := s.record k address register
  { s.emitDiag e with fault := some e }

/-- AddressOutOfRange at an address (60_exceptions.md R131). -/
def State.raiseAddress (s : State) (a : Nat) : State :=
  s.raise .addressOutOfRange (some a) none

/-- RegisterOutOfRange at an index (60_exceptions.md R132). -/
def State.raiseRegister (s : State) (r : Byte) : State :=
  s.raise .registerOutOfRange none (some r)

/-- UnsupportedOperation (60_exceptions.md R133). -/
def State.raiseUnsupported (s : State) : State :=
  s.raise .unsupportedOperation none none

/-- `unknown(opc)`: the soft failure (40_execution_loop.md R84, 60_exceptions.md R134). -/
def State.unknown (s : State) (opc : Byte) : State :=
  (s.emitDiag
    { kind := .unknownInstruction, pc := s.pc, opcode := some opc, address := none, register := none }).advance 1

/-- `MemRead(a, 1)` inside a step (20_memory.md R40): raises on `s`, or goes on with the byte. -/
def memRead (s : State) (a : Nat) (k : Byte → Host.Outcome State Fault Refusal) : Host.Outcome State Fault Refusal :=
  match s.mem.read a with
  | none => .next (s.raiseAddress a)
  | some b => k b

/-- `MemWrite(a, 1, v)` inside a step (20_memory.md R41): raises on `s`, or goes on with the new memory. -/
def memWrite (s : State) (a : Nat) (v : Byte) (k : Memory → Host.Outcome State Fault Refusal) :
    Host.Outcome State Fault Refusal :=
  match s.mem.write a v with
  | none => .next (s.raiseAddress a)
  | some m => k m

/-- The bytes the fetch and the operand reads can see: the cells at `pc`, `pc + 1`, `pc + 2` that exist (10_state.md R36,
20_memory.md R53). The decoder looks at those of the instruction's own width and at no other (40_execution_loop.md R83). -/
def State.fetchBytes (s : State) : List Byte :=
  s.mem.readBytes maxWidth s.pc

/-- What a step does when no whole instruction lies at `pc`: AddressOutOfRange at the fetch (40_execution_loop.md R82) or
at an operand read (R83), or the unknown-opcode fallback (R84). -/
def State.undecoded (s : State) : DecodeError → State
  | .noOpcode => s.raiseAddress s.pc
  | .missingOperand _ k => s.raiseAddress (s.pc + k)
  | .unknownOpcode opc => s.unknown opc

end Sys2Proof.Machine
end

