-- ==== Sys2Proof/Machine/Operands.lean ====
section
/-! DEFINITION. The operand forms (spec/30_encoding.md R63, R64) and the checks a handler makes before it writes anything
(R83, R86 and R87 of spec/40_execution_loop.md). An immediate operand is its byte, with no check. -/

namespace Sys2Proof.Machine

/-- The first operand address `pc + 1`, …, `pc + n` outside memory, if any (40_execution_loop.md R83). -/
def firstBadOperand (pc n : Nat) : Option Nat :=
  ((List.range' (pc + 1) n).find? fun a => !decide (a < Config.memSize))

/-- Check (2) of 40_execution_loop.md R86: the operand addresses of an instruction of width `w`, in increasing order. -/
def withOperandBytes (w : Nat) (s : State) (k : Host.Outcome State Fault Refusal) : Host.Outcome State Fault Refusal :=
  match firstBadOperand s.pc (w - 1) with
  | some a => .next (s.raiseAddress a)
  | none => k

/-- A register operand as an index: the whole byte, never reduced modulo 8 (30_encoding.md R63). -/
def registerIndex (r : Byte) : Option (Fin Config.nreg) :=
  if h : r.toNat < Config.nreg then some ⟨r.toNat, h⟩ else none

/-- Check (3) of 40_execution_loop.md R86: RegisterOutOfRange for an index of 8 or more (10_state.md R21, R22). -/
def withRegister (r : Byte) (s : State) (k : Fin Config.nreg → Host.Outcome State Fault Refusal) :
    Host.Outcome State Fault Refusal :=
  match registerIndex r with
  | none => .next (s.raiseRegister r)
  | some d => k d

end Sys2Proof.Machine
end

