-- ==== Sys2Proof/Machine/Alu.lean ====
section
/-! DEFINITION. The ALU, with its one operation and its guard, and MUL (spec/42_alu.md). -/

namespace Sys2Proof.Machine

/-- What the ALU can be asked for. `other` is any operation outside the supported set `{MULTIPLY}`: no instruction asks
for one, and it is kept as the guarded invariant of 42_alu.md R110 (notes/assumptions/22.md). -/
inductive AluOp where
  | multiply
  | other (code : Nat)
  deriving DecidableEq, Repr

/-- The product formed exactly and then cut to its low 8 bits (42_alu.md R111). -/
def product (u v : Byte) : Byte :=
  (u.setWidth 16 * v.setWidth 16).setWidth 8

/-- `apply(operation, dest, src)` (42_alu.md R110, R111), as check (4) of 40_execution_loop.md R86: UnsupportedOperation
raised on `s` with nothing written, or on with the written state. -/
def aluApply (op : AluOp) (d src : Fin Config.nreg) (s : State) (k : State → Host.Outcome State Fault Refusal) :
    Host.Outcome State Fault Refusal :=
  match op with
  | .multiply => k (s.setReg d (product (s.reg d) (s.reg src)))
  | .other _ => .next s.raiseUnsupported

/-- MUL (42_alu.md R112): the first register operand is checked first. -/
def execMul (a b : Byte) (s : State) : Host.Outcome State Fault Refusal :=
  withOperandBytes 3 s <|
  withRegister a s fun d =>
  withRegister b s fun e =>
  aluApply .multiply d e s fun t =>
  .next (t.advance 3)

end Sys2Proof.Machine
end

