-- ==== Sys2Proof/Machine/Flags.lean ====
section
/-! DEFINITION. The running flag is the only flag (spec/10_state.md R27): no condition code, no status bit, no carry. What
sets it, what clears it, and when a step is enabled (R26; R80, R81 and R88 of spec/40_execution_loop.md). -/

namespace Sys2Proof.Machine

/-- What `run` does to the state before the first step (40_execution_loop.md R80). -/
def State.start (s : State) : State :=
  { s with started := true, running := true }

/-- What HLT does to the running flag (41_basic.md R100). -/
def State.stopRunning (s : State) : State :=
  { s with running := false }

/-- Why no step is enabled, if none is: a step is enabled exactly when `running = true` and `fault = none`
(40_execution_loop.md R81). -/
def State.stuck (s : State) : Option Fault :=
  if s.fault.isSome then some .faulted
  else if s.running then none
  else if s.started then some .halted
  else some .notStarted

end Sys2Proof.Machine
end

