-- ==== Sys2Proof/Machine/Basic.lean ====
section
/-! DEFINITION. HLT, LDI and PRN (spec/41_basic.md). -/

namespace Sys2Proof.Machine

/-- HLT (41_basic.md R100): no operand byte, no exception. -/
def execHlt (s : State) : Host.Outcome State Fault Refusal :=
  .next (s.stopRunning.advance 1)

/-- LDI (41_basic.md R101). -/
def execLdi (r i : Byte) (s : State) : Host.Outcome State Fault Refusal :=
  withOperandBytes 3 s <|
  withRegister r s fun d =>
  .next ((s.setReg d i).advance 3)

/-- PRN (41_basic.md R102). -/
def execPrn (r : Byte) (s : State) : Host.Outcome State Fault Refusal :=
  withOperandBytes 2 s <|
  withRegister r s fun d =>
  .next ((s.emitOut (s.reg d)).advance 2)

end Sys2Proof.Machine
end

