-- ==== Sys2Proof/Machine/Stack.lean ====
section
/-! DEFINITION. PUSH and POP: a full-descending stack at `x[7]` (spec/43_stack.md). The statements of each run in order,
which decides PUSH R7 and POP R7 (R166 of spec/70_reset_and_hazards.md, the spec's decision D18; notes/assumptions/12.md),
and the stack pointer wraps modulo 256 (D3; notes/assumptions/3.md). -/

namespace Sys2Proof.Machine

/-- The stack pointer after PUSH's pre-decrement, which is the address PUSH stores to (43_stack.md R120). -/
def pushAddress (s : State) : Byte :=
  s.sp - 1#8

/-- PUSH (43_stack.md R120): the stored register is read after the decrement. -/
def execPush (r : Byte) (s : State) : Host.Outcome State Fault Refusal :=
  withOperandBytes 2 s <|
  withRegister r s fun d =>
  let t := s.setReg Config.spIndex (pushAddress s)
  memWrite s t.sp.toNat (t.reg d) fun m =>
  .next ((t.setMem m).advance 2)

/-- POP (43_stack.md R121): the load comes first, then the increment of `x[7]` as the load left it. -/
def execPop (r : Byte) (s : State) : Host.Outcome State Fault Refusal :=
  withOperandBytes 2 s <|
  withRegister r s fun d =>
  memRead s s.sp.toNat fun v =>
  let t := s.setReg d v
  .next ((t.setReg Config.spIndex (t.sp + 1#8)).advance 2)

end Sys2Proof.Machine
end

