-- ==== Sys2Proof/Machine/Loop.lean ====
section
/-! DEFINITION. One step of the loop for every OPCODE_VALUE (spec/40_execution_loop.md R81), and a program placed from
outside. -/

namespace Sys2Proof.Machine

/-- `step()` (40_execution_loop.md R81): where it is enabled, fetch, resolve and run one handler or the fallback. -/
def stepWith (v : OpcodeValue) (s : State) : Host.Outcome State Fault Refusal :=
  match s.stuck with
  | some f => .fault f
  | none =>
    match decode v s.fetchBytes with
    | .ok (i, _) => exec i s
    | .error e => .next (s.undecoded e)

/-- Bytes placed where the next fetch reads, in a state made one in which a step is enabled: it stands for the host's
`load` and `run` (10_state.md R34, 40_execution_loop.md R80; notes/assumptions/14.md). A byte that would lie outside
memory is not stored. -/
def State.placed (s : State) (bytes : List Byte) : State :=
  { s.start with mem := s.mem.writeBytes s.pc bytes, fault := none }

end Sys2Proof.Machine
end

