-- ==== Sys2Proof/Machine/Step.lean ====
section
/-! DEFINITION. One step at the default OPCODE_VALUE (spec/40_execution_loop.md R81, spec/30_encoding.md R62). -/

namespace Sys2Proof.Machine

/-- The step at the default OPCODE_VALUE of 30_encoding.md R62 (PRESUMED, notes/assumptions/1.md). -/
def step (s : State) : Host.Outcome State Fault Refusal :=
  stepWith .default s

/-- A table word placed so that the very next step fetches and runs it (notes/assumptions/14.md). -/
def State.withFetchWord (s : State) (nbits w : Nat) : State :=
  s.placed (tableWordBytes nbits w)

end Sys2Proof.Machine
end

