-- ==== Sys2Proof/Machine/Session.lean ====
section
/-! DEFINITION. The engine's side of its boundary with the host (spec/00_scope.md R11, spec/60_exceptions.md R148):
construct, load, run and inspect, with what each admits. The output and diagnostic sinks are `out` and `diag` of State. -/

namespace Sys2Proof.Machine

/-- Whether `load` was made (bookkeeping of the model, beside State: notes/assumptions/16.md). -/
inductive LoadPhase where
  | unloaded
  | loaded
  | loadFailed
  deriving DecidableEq, Repr

/-- An engine as its caller holds it. -/
structure Session where
  engine : State
  phase  : LoadPhase
  deriving DecidableEq, Repr

/-- What the caller of `load` gets back (60_exceptions.md R137, R148). -/
inductive LoadReply where
  | success
  /-- ProgramTooLarge, with the image length (60_exceptions.md R130). -/
  | programTooLarge (length : Nat)
  deriving DecidableEq, Repr

/-- What the caller of `run` gets back (40_execution_loop.md R80, R88). -/
inductive RunReply where
  | halted
  | faulted (record : Event)
  deriving DecidableEq, Repr

/-- What the caller may inspect (00_scope.md R11, 40_execution_loop.md R88). -/
structure Inspection where
  mem     : List Byte
  x       : Vector Byte Config.nreg
  pc      : Nat
  running : Bool
  out     : List Byte
  diag    : List Event
  fault   : Option Event
  deriving DecidableEq, Repr

/-- construct (70_reset_and_hazards.md R160). -/
def Session.construct : Session where
  engine := State.reset
  phase  := .unloaded

/-- load(image) (10_state.md R34, 60_exceptions.md R137): before `run`, at most once; an image longer than 256 bytes fails
and writes nothing. -/
def Session.load (e : Session) (image : List Byte) : Except Refusal (Session × LoadReply) :=
  if e.engine.started then .error .loadAfterRun
  else if e.phase ≠ .unloaded then .error .secondLoad
  else if Config.maxProgram < image.length then
    .ok ({ e with phase := .loadFailed }, .programTooLarge image.length)
  else
    .ok ({ e with engine := e.engine.setMem (e.engine.mem.writeBytes Config.loadBase image), phase := .loaded }, .success)

/-- The loop (40_execution_loop.md R80, R88): steps until none is enabled, at most `n` of them. -/
def runLoop (v : OpcodeValue) : Nat → State → State
  | 0, s => s
  | n + 1, s =>
    match stepWith v s with
    | .next t => runLoop v n t
    | .fault _ => s
    | .refused _ => s

/-- The most steps a run takes (40_execution_loop.md R89). -/
abbrev runBound : Nat := Config.memSize + 1

/-- run (40_execution_loop.md R80): at most once per construction, and not after a failed load. -/
def Session.run (v : OpcodeValue) (e : Session) : Except Refusal (Session × RunReply) :=
  if e.engine.started then .error .secondRun
  else if e.phase = .loadFailed then .error .runAfterFailedLoad
  else
    let s := runLoop v runBound e.engine.start
    .ok ({ e with engine := s }, match s.fault with | none => .halted | some r => .faulted r)

/-- inspect (00_scope.md R11): the 256 cells in order, and the other observable state; it changes nothing. DESIGN CHOICE
(unsafe for a claim about inspection before the run has ended): R11, R88 and R146 speak of inspection after the run only and
R148 names no phase; the model answers in every phase, also before `load` and `run` (notes/assumptions/24.md). -/
def Session.inspect (e : Session) : Inspection where
  mem     := (List.range Config.memSize).map e.engine.mem.cell
  x       := e.engine.x
  pc      := e.engine.pc
  running := e.engine.running
  out     := e.engine.out
  diag    := e.engine.diag
  fault   := e.engine.fault

end Sys2Proof.Machine
end

