-- ==== Sys2Proof/Safety.lean ====
section
/-! DEFINITION. What claims speak of: an enabled step, the two final states, bytes at an address, and the invariant every
step keeps. -/

namespace Sys2Proof.Machine

/-- A step is enabled (spec/40_execution_loop.md R81). -/
abbrev State.Enabled (s : State) : Prop :=
  s.running = true ∧ s.fault = none

/-- The final state "halted" (spec/40_execution_loop.md R88). -/
abbrev State.Halted (s : State) : Prop :=
  s.started = true ∧ s.running = false ∧ s.fault = none

/-- The final state "faulted" (spec/40_execution_loop.md R88). -/
abbrev State.Faulted (s : State) : Prop :=
  s.fault ≠ none

/-- The bytes `bs` lie in memory at `a`, `a + 1`, … (spec/20_memory.md R45). -/
abbrev State.BytesAt (s : State) (a : Nat) (bs : List Byte) : Prop :=
  ∀ k : Fin bs.length, s.mem.read (a + k) = some bs[k]

/-- The record of AddressOutOfRange: the address, and the opcode byte unless its own fetch failed (spec/10_state.md R31). -/
def addressRecord (pc : Nat) (opcode : Option Byte) (a : Nat) : Event where
  kind     := .addressOutOfRange
  pc       := pc
  opcode   := opcode
  address  := some a
  register := none

/-- The record of RegisterOutOfRange: the index and the opcode byte (spec/10_state.md R31). -/
def registerRecord (pc : Nat) (opcode : Option Byte) (r : Byte) : Event where
  kind     := .registerOutOfRange
  pc       := pc
  opcode   := opcode
  address  := none
  register := some r

/-- The state a fatal condition with record `e` leaves: `e` in `fault` and last in `diag`, nothing else changed
(spec/60_exceptions.md R136). -/
def State.stoppedBy (s : State) (e : Event) : State :=
  { s with fault := some e, diag := s.diag ++ [e] }

/-- A fault record agrees with the state it stopped in: a fatal kind, the unchanged `pc`, the opcode byte still at `pc`,
and the same record last in `diag` (spec/10_state.md R31, spec/60_exceptions.md R136). -/
abbrev State.RecordOk (s : State) (e : Event) : Prop :=
  e.kind.fatal = true ∧ e.pc = s.pc ∧ e.opcode = s.mem.read s.pc ∧ s.diag.getLast? = some e

/-- The invariant of the engine. Memory keeps its canonical form; `pc` is at most 256 (spec/10_state.md R24); the engine
runs only once started (R26, R32); a fault record leaves `running` true (R26) and agrees with the state; while there is
none, `diag` holds UnknownInstruction events only, and once there is one, every event but the last (R30, R31). -/
structure State.Inv (s : State) : Prop where
  memory  : s.mem.wf
  pcBound : s.pc ≤ Config.memSize
  begun   : s.running = true → s.started = true
  faulted : ∀ e, s.fault = some e → s.running = true ∧ s.RecordOk e
  soft    : s.fault = none → ∀ e ∈ s.diag, e.kind = .unknownInstruction
  before  : s.fault ≠ none → ∀ e ∈ s.diag.dropLast, e.kind = .unknownInstruction

end Sys2Proof.Machine
end

