-- ==== Sys2Proof/WellFormed.lean ====
section
/-! DEFINITION. The static check on an instruction: "The only operand values that are illegal are register indices 8 to
255" (spec/30_encoding.md R66). An ill-formed instruction still decodes and still runs (it raises RegisterOutOfRange). -/

namespace Sys2Proof

/-- A register operand names one of `R0` to `R7` (30_encoding.md R63). -/
def registerOperandOk (r : Byte) : Bool :=
  r.toNat < Config.nreg

/-- Every register operand of the instruction is legal; an immediate may be any byte (30_encoding.md R63). -/
def Instr.wellFormed : Instr → Bool
  | .hlt => true
  | .ldi r _ => registerOperandOk r
  | .prn r => registerOperandOk r
  | .mul a b => registerOperandOk a && registerOperandOk b
  | .push r => registerOperandOk r
  | .pop r => registerOperandOk r

end Sys2Proof
end

