-- ==== Sys2Proof/Certificates/Slice0/Obligations.lean ====
section
/-! DEFINITION. The statements for the provers. Each docstring names the rule of spec/ it formalises, and the spec's own
decision (D<n> of spec/92_eei_decisions.md) or the log entry where a clause rests on one. Where a statement takes an
OPCODE_VALUE, it holds for every one the quantifier admits, the default among them. -/

open Sys2Proof Sys2Proof.Machine

-- ==== Encoding ====

/-- Words written out from 30_encoding.md R61 and R62, decoded at the default OPCODE_VALUE. The six opcode bytes are
PRESUMED (notes/assumptions/1.md). -/
def Obligations.SampleWordsDecode : Prop :=
  decode .default [0b00000001#8] = .ok (.hlt, []) ∧
  decode .default [0b10000010#8, 3#8, 255#8] = .ok (.ldi 3#8 255#8, []) ∧
  decode .default [0b01000111#8, 7#8] = .ok (.prn 7#8, []) ∧
  decode .default [0b10100010#8, 8#8, 9#8] = .ok (.mul 8#8 9#8, []) ∧
  decode .default [0b01000101#8, 7#8] = .ok (.push 7#8, []) ∧
  decode .default [0b01000110#8, 2#8, 1#8] = .ok (.pop 2#8, [1#8]) ∧
  decode .default [0b11111111#8, 1#8] = .error (.unknownOpcode 255#8) ∧
  decode .default [0b10000010#8, 9#8] = .error (.missingOperand 0x82#8 2)

/-- Decoding what was encoded gives the instruction back, with every operand at every value and whatever follows, for
every legal OPCODE_VALUE (30_encoding.md R60, R61, R65). -/
def Obligations.DecodeOfEncodeIsIdentity : Prop :=
  ∀ (v : OpcodeValue), v.Legal → ∀ (i : Instr) (rest : List Byte),
    decode v (encode v i ++ rest) = .ok (i, rest)

/-- The other direction: bytes that decode are exactly the encoding of what they decode to, and then the rest. -/
def Obligations.DecodedBytesAreTheEncoding : Prop :=
  ∀ (v : OpcodeValue) (bytes : List Byte) (i : Instr) (rest : List Byte),
    decode v bytes = .ok (i, rest) → bytes = encode v i ++ rest

/-- 40_execution_loop.md R85: the table holds the six opcode bytes and no other entry; `resolve` answers the mnemonic for
those six and nothing for every other byte. -/
def Obligations.DispatchTableHoldsExactlySix : Prop :=
  ∀ (v : OpcodeValue), v.Legal →
    (dispatchTable v).map Prod.fst = v.bytes ∧
    (∀ m : Opcode, resolve v (v.byte m) = some m) ∧
    (∀ opc : Byte, (∀ m : Opcode, opc ≠ v.byte m) → resolve v opc = none)

/-- 30_encoding.md R67: an instruction's length is fixed by its opcode byte alone, by the widths of R60, and there are no
prefixes. The decoder is given no state, so no mode bit can change it. Whatever bytes follow, an opcode byte that resolves
decodes to its mnemonic and takes exactly its width, where that many bytes are there, and to no instruction where they are
not; a byte that resolves to none is refused by itself, no byte after it being decoded in its place, and is passed over as
an instruction of width 1. That `pc` moves past it without a wrap at 255 is the spec's decision D2 (log 2). -/
def Obligations.LengthIsFixedByTheOpcodeByte : Prop :=
  ([Opcode.hlt, .ldi, .prn, .mul, .push, .pop].map Opcode.width = [1, 3, 2, 3, 2, 2]) ∧
  (∀ (v : OpcodeValue) (opc : Byte) (m : Opcode) (following : List Byte), resolve v opc = some m →
    (m.width ≤ (opc :: following).length →
      ∃ i : Instr, i.opcode = m ∧ decode v (opc :: following) = .ok (i, (opc :: following).drop m.width)) ∧
    ((opc :: following).length < m.width →
      ∃ k : Nat, decode v (opc :: following) = .error (.missingOperand opc k))) ∧
  (∀ (v : OpcodeValue) (opc : Byte) (following : List Byte), resolve v opc = none →
    decode v (opc :: following) = .error (.unknownOpcode opc)) ∧
  (∀ (s : State) (opc : Byte), (s.unknown opc).pc = s.pc + 1)

-- ==== Reset and the invariant ====

/-- 70_reset_and_hazards.md R160, with the table of 10_state.md R20: construction gives every state element its reset
value, and the dispatch table is built. -/
def Obligations.ConstructionResetsEveryElement : Prop :=
  Session.construct.engine = State.reset ∧
  (∀ a, a < 256 → State.reset.mem.read a = some 0#8) ∧
  (∀ d : Fin 8, State.reset.reg d = if d = 7 then 0xF4#8 else 0#8) ∧
  State.reset.pc = 0 ∧ State.reset.running = false ∧ State.reset.fault = none ∧
  State.reset.out = [] ∧ State.reset.diag = [] ∧ State.reset.started = false ∧
  (∀ v : OpcodeValue, v.Legal → ∀ m : Opcode, resolve v (v.byte m) = some m)

/-- The invariant of Safety.lean holds of the reset state. The canonical form of memory in it is the model's (log 19). -/
def Obligations.ResetMeetsTheInvariant : Prop :=
  State.reset.Inv

/-- Every step, for every OPCODE_VALUE and at the default one, keeps the invariant of Safety.lean: memory in canonical
form, `pc` at most 256, a running engine was started, a fault record agrees with the state it stopped in, and `diag`
holds soft failures only, but for the record that stands last once one is set (10_state.md R24, R26, R30, R31, R33;
60_exceptions.md R136). It rests on the spec's decisions D2 (an unwrapped `pc`, log 2), D4 (precise faults, log 4), D6 (the
running flag, log 6) and D15 (events, log 10), and the canonical form is the model's (log 19). -/
def Obligations.EveryStepKeepsTheInvariant : Prop :=
  ∀ (v : OpcodeValue) (s t : State), s.Inv → (stepWith v s = .next t ∨ step s = .next t) → t.Inv

-- ==== The step ====

/-- Where the bytes at `pc` are the encoding of an instruction, an enabled step is that instruction's meaning, well-formed
or not; nothing is added around it (40_execution_loop.md R81, R83, R87). The second clause is the step of the core. -/
def Obligations.StepRunsTheDecodedInstruction : Prop :=
  (∀ (v : OpcodeValue) (s : State) (i : Instr), v.Legal → s.Enabled → s.BytesAt s.pc (encode v i) →
    stepWith v s = exec i s) ∧
  (∀ (s : State) (i : Instr), s.Enabled → s.BytesAt s.pc (encode .default i) → Sys2Proof.core.step s = exec i s)

/-- 40_execution_loop.md R82: the fetch reads the opcode byte at `pc`; at `pc >= 256` it raises AddressOutOfRange with that
address and no opcode, and nothing else changes. That a fetch has no side effect is the first clause: what is fetched is
a function of memory and `pc`. The raising clause rests on the spec's decisions D2 (a `pc` of 256 or above is not wrapped,
log 2), D4 (a fault changes nothing but the record and its event, log 4) and D15 (the event's fields, log 10). `fetchBytes` is
the model's window of up to three cells (DEDUCED, log 20); only its first byte is spoken of here. -/
def Obligations.FetchReadsTheOpcodeOrRaises : Prop :=
  ∀ (v : OpcodeValue) (s : State),
    s.fetchBytes.head? = s.mem.read s.pc ∧
    (s.Enabled → 256 ≤ s.pc → stepWith v s = .next (s.stoppedBy (addressRecord s.pc none s.pc)))

/-- 40_execution_loop.md R84: an opcode byte the table does not hold is a soft failure: one event, `pc + 1`, and nothing
else; at address 255 the next fetch then raises AddressOutOfRange at 256. The event's fields are the spec's decision D15
(log 10); the clause at 255 rests on its decisions D2 (the `pc` of 256 is not wrapped, log 2) and D4 (a fault changes nothing
but the record and its event, log 4). -/
def Obligations.UnknownOpcodeIsSkippedWithAnEvent : Prop :=
  ∀ (v : OpcodeValue) (s : State) (opc : Byte), s.Enabled → s.mem.read s.pc = some opc → (∀ m : Opcode, opc ≠ v.byte m) →
    ∃ t : State, stepWith v s = .next t ∧
      t = { s with
        pc := s.pc + 1
        diag := s.diag ++ [{ kind := .unknownInstruction, pc := s.pc, opcode := some opc, address := none, register := none }] } ∧
      (s.pc = 255 → stepWith v t = .next (t.stoppedBy (addressRecord 256 none 256)))

/-- 40_execution_loop.md R83: where the last byte of the instruction would lie at 256 or above, the step raises
AddressOutOfRange at 256 with the fetched opcode, whatever the operands. It rests on the spec's decisions D2 (no wrap, log 2),
D4 (precise faults, log 4), D5 (the order of checks, log 5), D7 (the bytes read, log 7) and D15 (the record, log 10). -/
def Obligations.OperandReadPastMemoryRaises : Prop :=
  ∀ (v : OpcodeValue) (s : State) (m : Opcode), v.Legal → s.Enabled → s.mem.read s.pc = some (v.byte m) →
    256 < s.pc + m.width →
    stepWith v s = .next (s.stoppedBy (addressRecord s.pc (some (v.byte m)) 256))

/-- The same of the meanings themselves: a handler whose operand bytes do not all lie in memory raises before it looks at a
register index (40_execution_loop.md R83, R86). It rests on the spec's decisions D2, D4, D5, D7 and D15 (log 2, 4, 5, 7, 10).
That a meaning called outside a step makes this check itself, and records the byte at `pc` as the opcode whatever the
instruction is, is the model's inference (DEDUCED, log 17). -/
def Obligations.HandlerRaisesBeforeItLooksAtRegisters : Prop :=
  ∀ (i : Instr) (s : State), s.pc < 256 → 256 < s.pc + i.opcode.width →
    exec i s = .next (s.stoppedBy (addressRecord s.pc (s.mem.read s.pc) 256))

/-- 60_exceptions.md R132: RegisterOutOfRange is raised by each instruction with a register operand of 8 or more, with the
index, the `pc` and the opcode, and by nothing else: a well-formed instruction in memory sets no fault record. The order
of MUL's two checks is the spec's decision D5 (log 5), that a fault changes nothing but the record and its event D4 (log 4),
the record's fields D15 (log 10), and that a wrapping stack address raises nothing D3 (log 3). -/
def Obligations.RegisterIndexOfEightOrMoreRaises : Prop :=
  ∀ (v : OpcodeValue) (s : State), v.Legal → s.Enabled →
    (∀ r i : Byte, s.BytesAt s.pc [v.ldi, r, i] → 8 ≤ r.toNat →
      stepWith v s = .next (s.stoppedBy (registerRecord s.pc (some v.ldi) r))) ∧
    (∀ r : Byte, s.BytesAt s.pc [v.prn, r] → 8 ≤ r.toNat →
      stepWith v s = .next (s.stoppedBy (registerRecord s.pc (some v.prn) r))) ∧
    (∀ r : Byte, s.BytesAt s.pc [v.push, r] → 8 ≤ r.toNat →
      stepWith v s = .next (s.stoppedBy (registerRecord s.pc (some v.push) r))) ∧
    (∀ r : Byte, s.BytesAt s.pc [v.pop, r] → 8 ≤ r.toNat →
      stepWith v s = .next (s.stoppedBy (registerRecord s.pc (some v.pop) r))) ∧
    (∀ a b : Byte, s.BytesAt s.pc [v.mul, a, b] → 8 ≤ a.toNat →
      stepWith v s = .next (s.stoppedBy (registerRecord s.pc (some v.mul) a))) ∧
    (∀ a b : Byte, s.BytesAt s.pc [v.mul, a, b] → a.toNat < 8 → 8 ≤ b.toNat →
      stepWith v s = .next (s.stoppedBy (registerRecord s.pc (some v.mul) b))) ∧
    (∀ i : Instr, s.BytesAt s.pc (encode v i) → i.wellFormed = true →
      ∃ t : State, stepWith v s = .next t ∧ t.fault = none)

/-- No instruction ends in a fault or a refusal of the model: a fatal condition is a next state (60_exceptions.md R136, the
spec's decision D4, log 4), outside a step too (log 17). -/
def Obligations.EveryInstructionHasANextState : Prop :=
  ∀ (i : Instr) (s : State), ∃ t : State, exec i s = .next t

/-- 40_execution_loop.md R81: a step has a next state exactly when `running = true` and `fault = none`; the two final states
of R88 and the state before `run` have none (60_exceptions.md R136, R147). The enabling condition is the spec's decision D6
(log 6); the names of the three stops are the model's (log 15). -/
def Obligations.StepIsEnabledExactlyWhileRunning : Prop :=
  ∀ (v : OpcodeValue) (s : State),
    ((∃ t : State, stepWith v s = .next t) ↔ s.running = true ∧ s.fault = none) ∧
    (s.Faulted → stepWith v s = .fault .faulted) ∧
    (s.Halted → stepWith v s = .fault .halted) ∧
    (s.started = false → s.running = false → s.fault = none → stepWith v s = .fault .notStarted)

-- ==== The six instructions: what each does, where it completes ====

/-- 41_basic.md R100: HLT clears `running`, adds 1 to `pc` (also at 255, without fault) and changes nothing else; no further
step is enabled (that the stop is named `halted` is the model's choice, log 15). -/
def Obligations.HltStopsTheLoop : Prop :=
  ∀ (v : OpcodeValue) (s : State),
    encode v .hlt = [v.hlt] ∧
    exec .hlt s = .next { s with running := false, pc := s.pc + 1 } ∧
    (s.started = true → s.fault = none → stepWith v { s with running := false, pc := s.pc + 1 } = .fault .halted)

/-- 41_basic.md R101: LDI stores its immediate byte unchanged in the named register and adds 3 to `pc`; the two operand
addresses and then the index are checked, and a check that fails changes nothing but the fault record and its event. The
raising clauses rest on the spec's decisions D4, D5 and D15 (log 4, 5, 10), and that a meaning called outside a step makes
the operand check itself and takes the opcode from `pc` is DEDUCED (log 17). -/
def Obligations.LdiLoadsItsImmediate : Prop :=
  ∀ (v : OpcodeValue) (r i : Byte) (s : State),
    encode v (.ldi r i) = [v.ldi, r, i] ∧
    (∀ d : Fin 8, r.toNat = d → s.pc + 2 < 256 →
      exec (.ldi r i) s = .next { s with x := s.x.set d i, pc := s.pc + 3 }) ∧
    (s.mem.read s.pc = some v.ldi →
      (s.pc = 255 → exec (.ldi r i) s = .next (s.stoppedBy (addressRecord s.pc (some v.ldi) (s.pc + 1)))) ∧
      (s.pc = 254 → exec (.ldi r i) s = .next (s.stoppedBy (addressRecord s.pc (some v.ldi) (s.pc + 2)))) ∧
      (s.pc + 2 < 256 → 8 ≤ r.toNat →
        exec (.ldi r i) s = .next (s.stoppedBy (registerRecord s.pc (some v.ldi) r))))

/-- 41_basic.md R102: PRN appends the unsigned value of the named register to the output trace, leaves the register, and adds
2 to `pc`; a faulting PRN emits nothing. The raising clauses rest on the spec's decisions D4, D5 and D15 (log 4, 5, 10), and
that a meaning called outside a step makes the operand check itself and takes the opcode from `pc` is DEDUCED (log 17). -/
def Obligations.PrnEmitsTheRegister : Prop :=
  ∀ (v : OpcodeValue) (r : Byte) (s : State),
    encode v (.prn r) = [v.prn, r] ∧
    (∀ d : Fin 8, r.toNat = d → s.pc + 1 < 256 →
      exec (.prn r) s = .next { s with out := s.out ++ [s.reg d], pc := s.pc + 2 }) ∧
    (s.mem.read s.pc = some v.prn →
      (s.pc = 255 → exec (.prn r) s = .next (s.stoppedBy (addressRecord s.pc (some v.prn) 256))) ∧
      (s.pc + 1 < 256 → 8 ≤ r.toNat →
        exec (.prn r) s = .next (s.stoppedBy (registerRecord s.pc (some v.prn) r))))

/-- 42_alu.md R112: MUL stores the low 8 bits of the exact product of two unsigned bytes in its first register and adds 3 to
`pc`, with no flag anywhere; the first index is checked before the second. The raising clauses rest on the spec's decisions
D4, D5 and D15 (log 4, 5, 10), and that a meaning called outside a step makes the operand check itself and takes the opcode
from `pc` is DEDUCED (log 17). -/
def Obligations.MulStoresTheProductModulo256 : Prop :=
  ∀ (v : OpcodeValue) (a b : Byte) (s : State),
    encode v (.mul a b) = [v.mul, a, b] ∧
    (∀ d e : Fin 8, a.toNat = d → b.toNat = e → s.pc + 2 < 256 →
      exec (.mul a b) s =
        .next { s with x := s.x.set d (BitVec.ofNat 8 ((s.reg d).toNat * (s.reg e).toNat % 256)), pc := s.pc + 3 }) ∧
    (s.mem.read s.pc = some v.mul →
      (s.pc = 255 ∨ s.pc = 254 → exec (.mul a b) s = .next (s.stoppedBy (addressRecord s.pc (some v.mul) 256))) ∧
      (s.pc + 2 < 256 → 8 ≤ a.toNat →
        exec (.mul a b) s = .next (s.stoppedBy (registerRecord s.pc (some v.mul) a))) ∧
      (s.pc + 2 < 256 → a.toNat < 8 → 8 ≤ b.toNat →
        exec (.mul a b) s = .next (s.stoppedBy (registerRecord s.pc (some v.mul) b))))

/-- 43_stack.md R120: PUSH decrements `x[7]` modulo 256 and stores the named register, read after the decrement, at the new
`x[7]`. The wrap at 0 is the spec's decision D3 (log 3), the overwrite of whatever lies there D17 (log 11), the value PUSH R7
stores D18 (log 12); the raising clauses rest on D4, D5 and D15 (log 4, 5, 10), and that a meaning called outside a step makes
the operand check itself and takes the opcode from `pc` is DEDUCED (log 17). The premise that memory is in canonical form is
the model's (DEDUCED, log 19). -/
def Obligations.PushStoresBelowTheStackPointer : Prop :=
  ∀ (v : OpcodeValue) (r : Byte) (s : State), s.mem.wf →
    encode v (.push r) = [v.push, r] ∧
    (∀ d : Fin 8, r.toNat = d → s.pc + 1 < 256 →
      ∃ t : State, exec (.push r) s = .next t ∧
        t.x = s.x.set 7 (s.reg 7 - 1) ∧
        (∀ a, t.mem.read a =
          if a = (s.reg 7 - 1).toNat then some (if d = 7 then s.reg 7 - 1 else s.reg d) else s.mem.read a) ∧
        t.pc = s.pc + 2 ∧ t.running = s.running ∧ t.fault = s.fault ∧ t.out = s.out ∧ t.diag = s.diag ∧
        t.started = s.started) ∧
    (s.mem.read s.pc = some v.push →
      (s.pc = 255 → exec (.push r) s = .next (s.stoppedBy (addressRecord s.pc (some v.push) 256))) ∧
      (s.pc + 1 < 256 → 8 ≤ r.toNat →
        exec (.push r) s = .next (s.stoppedBy (registerRecord s.pc (some v.push) r))))

/-- 43_stack.md R121: POP loads the byte at `x[7]` into the named register and then increments `x[7]` modulo 256, as the load
left it. The wrap at 0xFF is the spec's decision D3 (log 3), the value POP R7 leaves D18 (log 12); the raising clauses rest on
D4, D5 and D15 (log 4, 5, 10), and that a meaning called outside a step makes the operand check itself and takes the opcode
from `pc` is DEDUCED (log 17). -/
def Obligations.PopLoadsThenIncrements : Prop :=
  ∀ (v : OpcodeValue) (r : Byte) (s : State),
    encode v (.pop r) = [v.pop, r] ∧
    (∀ d : Fin 8, ∀ b : Byte, r.toNat = d → s.pc + 1 < 256 → s.mem.read (s.reg 7).toNat = some b →
      exec (.pop r) s = .next
        { s with x := if d = 7 then s.x.set 7 (b + 1) else (s.x.set d b).set 7 (s.reg 7 + 1), pc := s.pc + 2 }) ∧
    (s.mem.read s.pc = some v.pop →
      (s.pc = 255 → exec (.pop r) s = .next (s.stoppedBy (addressRecord s.pc (some v.pop) 256))) ∧
      (s.pc + 1 < 256 → 8 ≤ r.toNat →
        exec (.pop r) s = .next (s.stoppedBy (registerRecord s.pc (some v.pop) r))))

/-- Every well-formed instruction whose bytes lie in memory completes: `pc` moves past it and no condition is recorded,
whatever the registers, the memory and the stack pointer hold (20_memory.md R55 for the stack, decision D3, log 3). -/
def Obligations.WellFormedInstructionCompletes : Prop :=
  ∀ (i : Instr) (s : State), i.wellFormed = true → s.pc + i.opcode.width ≤ 256 →
    ∃ t : State, exec i s = .next t ∧ t.pc = s.pc + i.opcode.width ∧ t.fault = s.fault ∧ t.diag = s.diag

-- ==== Frames ====

/-- The frame of the forms that store nothing: HLT, LDI, PRN, MUL and POP leave every byte of memory and `started`, every
register but their destination (and `x[7]`, which POP also increments), `running` but for HLT, and `out` but for PRN; a
well-formed one whose bytes lie in memory also leaves `fault` and `diag` (41_basic.md R100 to R102, 42_alu.md R112,
43_stack.md R121). Where the instruction raises, this is the spec's decision D4 (log 4). -/
def Obligations.FrameOfTheNonStoringInstructions : Prop :=
  ∀ (i : Instr) (s t : State), i.opcode ≠ .push → exec i s = .next t →
    (∀ a, t.mem.read a = s.mem.read a) ∧
    (∀ d : Fin 8,
      (match i with
        | .hlt => True
        | .ldi r _ => r.toNat ≠ d
        | .prn _ => True
        | .mul a _ => a.toNat ≠ d
        | .push _ => False
        | .pop r => r.toNat ≠ d ∧ d ≠ 7) → t.reg d = s.reg d) ∧
    t.started = s.started ∧
    (i.opcode ≠ .hlt → t.running = s.running) ∧
    (i.opcode ≠ .prn → t.out = s.out) ∧
    (i.wellFormed = true → s.pc + i.opcode.width ≤ 256 → t.fault = s.fault ∧ t.diag = s.diag)

/-- The frame of PUSH: `pushAddress s` is the address stored to; every byte outside it, every register but `x[7]`, both
flags of the loop and `out` are as before, and, for a register operand below 8 whose byte lies in memory, `fault` and
`diag` too (43_stack.md R120). The wrap of the address is the spec's decision D3 (log 3); where PUSH raises, this is D4
(log 4). The premise that memory is in canonical form is the model's (DEDUCED, log 19). -/
def Obligations.FrameOfPush : Prop :=
  ∀ (r : Byte) (s t : State), s.mem.wf → exec (.push r) s = .next t →
    (∀ a, a ≠ (pushAddress s).toNat → t.mem.read a = s.mem.read a) ∧
    (∀ d : Fin 8, d ≠ 7 → t.reg d = s.reg d) ∧
    t.running = s.running ∧ t.started = s.started ∧ t.out = s.out ∧
    (r.toNat < 8 → s.pc + 1 < 256 → t.fault = s.fault ∧ t.diag = s.diag)

-- ==== The operations under the instructions ====

/-- 10_state.md R21 and R22: an index of 8 or more raises RegisterOutOfRange with the whole index and changes nothing else;
below 8 the read gives the held byte and changes nothing, and the write sets that register alone. That a fault changes
nothing but the record and its event is the spec's decision D4 (log 4), the record's fields D15 (log 10), and the opcode taken
from the cell at `pc` outside a step is DEDUCED (log 17). -/
def Obligations.RegisterAccessIsChecked : Prop :=
  ∀ (s : State) (r : Byte) (k : Fin 8 → Host.Outcome State Fault Refusal),
    (8 ≤ r.toNat → withRegister r s k = .next (s.stoppedBy (registerRecord s.pc (s.mem.read s.pc) r))) ∧
    (∀ d : Fin 8, r.toNat = d → withRegister r s k = k d) ∧
    (∀ d : Fin 8, s.reg d = s.x[d]) ∧
    (∀ (d : Fin 8) (b : Byte), s.setReg d b = { s with x := s.x.set d b } ∧
      ∀ e : Fin 8, (s.setReg d b).reg e = if e = d then b else s.reg e)

/-- 20_memory.md R40: a read inside `[0,256)` gives the cell and changes nothing; at 256 or above it raises
AddressOutOfRange with the address, which is never reduced. That a fault changes nothing but the record and its event is the
spec's decision D4 (log 4), the record's fields D15 (log 10), and the opcode taken from the cell at `pc` outside a step is
DEDUCED (log 17). -/
def Obligations.MemoryReadIsChecked : Prop :=
  ∀ (s : State) (a : Nat) (k : Byte → Host.Outcome State Fault Refusal),
    (a < 256 → ∃ b : Byte, s.mem.read a = some b ∧ memRead s a k = k b) ∧
    (256 ≤ a → s.mem.read a = none ∧ memRead s a k = .next (s.stoppedBy (addressRecord s.pc (s.mem.read s.pc) a)))

/-- 20_memory.md R41: a write inside `[0,256)` sets that cell and no other, in canonical form again; at 256 or above it
raises AddressOutOfRange with the address and stores nothing. The canonical form is the model's (DEDUCED, log 19); that a fault
changes nothing but the record and its event is the spec's decision D4 (log 4), the record's fields D15 (log 10), and the
opcode taken from the cell at `pc` outside a step is DEDUCED (log 17). -/
def Obligations.MemoryWriteIsCheckedAndSetsOneCell : Prop :=
  ∀ (s : State) (a : Nat) (b : Byte) (k : Memory → Host.Outcome State Fault Refusal), s.mem.wf →
    (a < 256 → ∃ m : Memory, memWrite s a b k = k m ∧ m.wf ∧ m.read a = some b ∧
      ∀ c, c ≠ a → m.read c = s.mem.read c) ∧
    (256 ≤ a → memWrite s a b k = .next (s.stoppedBy (addressRecord s.pc (s.mem.read s.pc) a)))

/-- Two memories in canonical form that read alike are the same data (10_state.md R33: 256 cells and nothing more). The
canonical form is the model's (DEDUCED, log 19). -/
def Obligations.ReadsDetermineTheMemory : Prop :=
  ∀ m m' : Memory, m.wf → m'.wf → (∀ a, m.read a = m'.read a) → m = m'

/-- 42_alu.md R111: `apply(MULTIPLY, d, s)` reads both registers before the write and stores the low 8 bits of their exact
unsigned product in the destination; nothing else is recorded. -/
def Obligations.AluMultiplyTruncates : Prop :=
  ∀ (d e : Fin 8) (s : State) (k : State → Host.Outcome State Fault Refusal),
    aluApply .multiply d e s k =
      k { s with x := s.x.set d (BitVec.ofNat 8 ((s.reg d).toNat * (s.reg e).toNat % 256)) }

/-- 60_exceptions.md R133: the ALU asked for an operation outside `{MULTIPLY}` raises UnsupportedOperation and writes
nothing; no step of this hardware raises it. Keeping the guard arm is the model's choice of the two that 42_alu.md R110 offers
(log 22); that a fault changes nothing but the record and its event is the spec's decision D4 (log 4), the record's fields D15
(log 10), and the opcode taken from the cell at `pc` is DEDUCED (log 17). -/
def Obligations.UnsupportedOperationIsGuardedAndUnreachable : Prop :=
  (∀ (code : Nat) (d e : Fin 8) (s : State) (k : State → Host.Outcome State Fault Refusal),
    aluApply (.other code) d e s k = .next (s.stoppedBy
      { kind := .unsupportedOperation, pc := s.pc, opcode := s.mem.read s.pc, address := none, register := none })) ∧
  (∀ (v : OpcodeValue) (s t : State) (e : Event), stepWith v s = .next t → t.fault = some e →
    e.kind ≠ .unsupportedOperation)

/-- The cause codes of 60_exceptions.md R130, which are the spec's own numbering (decision D19, log 13). -/
def Obligations.CauseCodesFollowTheTaxonomy : Prop :=
  [Kind.addressOutOfRange, .registerOutOfRange, .unsupportedOperation, .unknownInstruction, .programTooLarge].map
    Kind.code = [0, 1, 2, 3, 4] ∧
  ∀ k : Kind, k.fatal = true ↔ k.code < 3

-- ==== Rules about every step ====

/-- 10_state.md R25: `pc` moves by the width of the instruction it points at, by 1 for an unknown opcode, and not at all when
the step raises; the widths are 1, 3, 2, 3, 2, 2. That a step which raises leaves `pc` is the spec's decision D4 (log 4), that
the sum is not reduced its decision D2 (log 2). -/
def Obligations.PcAdvancesByTheWidth : Prop :=
  ([Opcode.hlt, .ldi, .prn, .mul, .push, .pop].map Opcode.width = [1, 3, 2, 3, 2, 2]) ∧
  ∀ (v : OpcodeValue) (s t : State), v.Legal → stepWith v s = .next t →
    (t.fault ≠ none → t.pc = s.pc) ∧
    (t.fault = none →
      (∀ m : Opcode, s.mem.read s.pc = some (v.byte m) → t.pc = s.pc + m.width) ∧
      ((∀ m : Opcode, s.mem.read s.pc ≠ some (v.byte m)) → t.pc = s.pc + 1))

/-- Only HLT ends the running state: a step clears `running` exactly when it fetched the HLT byte, so a fatal condition never
does (10_state.md R26, which rests on the spec's decision D6, log 6; D4 for what a fault changes, log 4). -/
def Obligations.OnlyHltClearsRunning : Prop :=
  ∀ (v : OpcodeValue) (s t : State), v.Legal → stepWith v s = .next t →
    (t.running = false ↔ s.mem.read s.pc = some v.hlt)

/-- 10_state.md R29 and 41_basic.md R102: the output trace is empty at construction; a PRN that completes appends the value
of the register it names, and nothing else writes the trace. That a step which sets a record leaves the trace is
60_exceptions.md R136, the spec's decision D4 (log 4). -/
def Obligations.OnlyPrnWritesTheOutput : Prop :=
  State.reset.out = [] ∧
  ∀ (v : OpcodeValue) (s t : State), v.Legal → stepWith v s = .next t →
    (s.mem.read s.pc = some v.prn ∧ t.fault = none ∧
      ∃ d : Fin 8, s.mem.read (s.pc + 1) = some (BitVec.ofNat 8 d) ∧ t.out = s.out ++ [s.reg d]) ∨
    ((s.mem.read s.pc ≠ some v.prn ∨ t.fault ≠ none) ∧ t.out = s.out)

/-- Only a PUSH that completes writes memory, and only the cell it stores to (20_memory.md R43, R52; 00_scope.md R12). That
memory is as it was after a record is the spec's decision D4 (log 4), the wrap of the address `x[7] - 1` its decision D3
(log 3). The premise that memory is in canonical form is the model's (DEDUCED, log 19). -/
def Obligations.OnlyPushWritesMemory : Prop :=
  ∀ (v : OpcodeValue) (s t : State), v.Legal → s.mem.wf → stepWith v s = .next t →
    ((s.mem.read s.pc ≠ some v.push ∨ t.fault ≠ none) → t.mem = s.mem) ∧
    (∀ a, a ≠ (s.reg 7 - 1).toNat → t.mem.read a = s.mem.read a)

/-- A fatal condition is precise: the step that sets a record changes nothing but `fault` and `diag`, and the record is
exact: its `pc` and fetched opcode; AddressOutOfRange with the address `pc` where the fetch fails, and otherwise 256, where
the instruction at `pc` runs past 255; RegisterOutOfRange with the first operand byte where that is 8 or more, and otherwise
MUL's second (10_state.md R31, 60_exceptions.md R131, R132, R136). It rests on the spec's decisions D2 (no wrap, log 2), D4
(precision, log 4), D5 (the order of checks, log 5), D7 (the bytes read, log 7) and D15 (the record, log 10). -/
def Obligations.FatalConditionIsPrecise : Prop :=
  ∀ (v : OpcodeValue) (s t : State) (e : Event), stepWith v s = .next t → t.fault = some e →
    t = { s with fault := some e, diag := s.diag ++ [e] } ∧
    e.pc = s.pc ∧ e.opcode = s.mem.read s.pc ∧
    ((256 ≤ s.pc ∧ e.kind = .addressOutOfRange ∧ e.address = some s.pc ∧ e.register = none) ∨
      (s.pc < 256 ∧ (∃ m : Opcode, s.mem.read s.pc = some (v.byte m) ∧ 256 < s.pc + m.width) ∧
        e.kind = .addressOutOfRange ∧ e.address = some 256 ∧ e.register = none) ∨
      (e.kind = .registerOutOfRange ∧ e.address = none ∧ ∃ r : Byte, e.register = some r ∧ 8 ≤ r.toNat ∧
        (s.mem.read (s.pc + 1) = some r ∨
          s.mem.read s.pc = some v.mul ∧ s.mem.read (s.pc + 2) = some r ∧
            ∃ a : Byte, s.mem.read (s.pc + 1) = some a ∧ a.toNat < 8)))

/-- At most one condition a step: the diagnostic trace gains the one UnknownInstruction event of the soft failure, the one
record of a fatal condition, or nothing (60_exceptions.md R139, 10_state.md R30). It rests on the spec's decisions D5 (the
first failing check alone is raised, log 5) and D15 (the event's fields, and that a fault's event is its record, log 10). -/
def Obligations.AtMostOneEventPerStep : Prop :=
  ∀ (v : OpcodeValue) (s t : State), stepWith v s = .next t →
    (t.fault = none ∧ t.diag = s.diag) ∨
    (t.fault = none ∧ ∃ opc : Byte, s.mem.read s.pc = some opc ∧ (∀ m : Opcode, opc ≠ v.byte m) ∧
      t.diag = s.diag ++ [{ kind := .unknownInstruction, pc := s.pc, opcode := some opc, address := none, register := none }]) ∨
    (∃ e : Event, t.fault = some e ∧ t.diag = s.diag ++ [e])

/-- What a step other than a PUSH or a POP does depends on memory only through the bytes of its own width at `pc`: with any
other memory that agrees on those, it does the same and leaves that memory. The first clause is HLT, LDI, PRN and MUL, the
second an unknown opcode, whose width is 1, the third a fetch at 256 or above, which reads no cell (40_execution_loop.md R82,
R83, R84, 20_memory.md R43; the spec's decisions D2, D4 and D7, log 2, 4, 7). So the cells of the model's three-cell window
past the width (DEDUCED, log 20) make no difference. -/
def Obligations.StepSeesOnlyItsOwnBytes : Prop :=
  ∀ (v : OpcodeValue) (s t : State) (m' : Memory), stepWith v s = .next t →
    (∀ m : Opcode, v.Legal → m ≠ .push → m ≠ .pop → s.mem.read s.pc = some (v.byte m) →
      (∀ k, k < m.width → m'.read (s.pc + k) = s.mem.read (s.pc + k)) →
      stepWith v { s with mem := m' } = .next { t with mem := m' }) ∧
    (∀ opc : Byte, (∀ m : Opcode, opc ≠ v.byte m) → s.mem.read s.pc = some opc → m'.read s.pc = some opc →
      stepWith v { s with mem := m' } = .next { t with mem := m' }) ∧
    (256 ≤ s.pc → stepWith v { s with mem := m' } = .next { t with mem := m' })

-- ==== The stack ====

/-- The stack round trip of 43_stack.md R122, a rule the spec derives: PUSH then POP, neither naming `R7` and the pushed
address outside the POP's two bytes, moves the byte and restores the stack pointer, for every stack pointer (the wrap at 0
is decision D3, log 3). The premise that memory is in canonical form is the model's (DEDUCED, log 19). -/
def Obligations.PushThenPopMovesTheByte : Prop :=
  ∀ (v : OpcodeValue) (s : State) (d e : Fin 8), v.Legal → s.mem.wf → s.Enabled → d ≠ 7 → e ≠ 7 →
    s.BytesAt s.pc [v.push, BitVec.ofNat 8 d, v.pop, BitVec.ofNat 8 e] →
    (s.reg 7 - 1).toNat ≠ s.pc + 2 → (s.reg 7 - 1).toNat ≠ s.pc + 3 →
    ∃ t u : State, stepWith v s = .next t ∧ stepWith v t = .next u ∧
      u.reg e = s.reg d ∧ u.reg 7 = s.reg 7 ∧ u.mem.read (s.reg 7 - 1).toNat = some (s.reg d) ∧
      (∀ f : Fin 8, f ≠ e → u.reg f = s.reg f) ∧ u.pc = s.pc + 4 ∧ u.fault = none

/-- After a PUSH of any register the stack pointer addresses the byte just pushed (43_stack.md R123, derived there), and the
next step fetches it: where the pushed address is that of the next instruction or of one of the two bytes after it, the
window the next step looks at holds the pushed byte there. The opcode byte and the operand bytes of that instruction's own
width are so read from it (20_memory.md R53, derived there), and a pushed HLT byte halts the engine. That the window is three
cells whatever the width is the model's inference (DEDUCED, log 20): by 40_execution_loop.md R83 and decision D7 (log 7) a
narrower instruction reads no byte past its width, and such a byte is in the model's window only. The wrap of the address is
the spec's decision D3 (log 3), the overwrite of the program D17 (log 11), the byte that PUSH R7 stores D18 (log 12); the
premise that memory is in canonical form is the model's (DEDUCED, log 19). -/
def Obligations.PushedByteIsFetchedByTheNextStep : Prop :=
  ∀ (v : OpcodeValue) (s : State) (d : Fin 8) (b : Byte), v.Legal → s.mem.wf → s.Enabled →
    s.BytesAt s.pc [v.push, BitVec.ofNat 8 d] → b = (if d = 7 then s.reg 7 - 1 else s.reg d) →
    ∃ t : State, stepWith v s = .next t ∧ t.pc = s.pc + 2 ∧ t.reg 7 = s.reg 7 - 1 ∧
      t.mem.read (t.reg 7).toNat = some b ∧
      (∀ k, k < 3 → (s.reg 7 - 1).toNat = s.pc + 2 + k → t.fetchBytes[k]? = some b) ∧
      (s.started = true → (s.reg 7 - 1).toNat = s.pc + 2 → b = v.hlt →
        ∃ u : State, stepWith v t = .next u ∧ u.Halted ∧ u.pc = s.pc + 3)

-- ==== Whole runs ====

/-- Every run of a started engine, from whatever state and at whatever OPCODE_VALUE, is over within 257 steps, in one of the
two final states (40_execution_loop.md R88, R89, the bound derived there). It rests on the spec's decisions D2 (`pc` never
wraps, log 2) and D6 (a fault ends the run, log 6). -/
def Obligations.EveryRunEndsWithin257Steps : Prop :=
  ∀ (v : OpcodeValue) (s : State), s.started = true → (runLoop v 257 s).Halted ∨ (runLoop v 257 s).Faulted

/-- A run ends halted only at an HLT: the byte before the final `pc` is the HLT byte (40_execution_loop.md R89,
70_reset_and_hazards.md R164). -/
def Obligations.HaltedRunStoppedAtAnHlt : Prop :=
  ∀ (v : OpcodeValue) (n : Nat) (s : State), v.Legal → s.Enabled → (runLoop v n s).Halted →
    ∃ a, (runLoop v n s).pc = a + 1 ∧ (runLoop v n s).mem.read a = some v.hlt

/-- Along a run the traces only grow, `started` stays, and `pc` never decreases; from a faulted state nothing changes
(10_state.md R25, R29, R30; 60_exceptions.md R138; decision D2 for a `pc` that never wraps, log 2). -/
def Obligations.TracesOnlyGrowAlongARun : Prop :=
  ∀ (v : OpcodeValue) (n : Nat) (s : State),
    s.out <+: (runLoop v n s).out ∧ s.diag <+: (runLoop v n s).diag ∧ (runLoop v n s).started = s.started ∧
    s.pc ≤ (runLoop v n s).pc ∧ (s.Faulted → runLoop v n s = s)

-- ==== The host's side ====

/-- Loading an image of at most 256 bytes into a constructed engine copies it to address 0, leaves every other cell 0 and
every other element at its reset value, admits no second load, and gives an engine that meets the invariant once started
(10_state.md R34). Admission is the spec's decision D10 (log 8), kept in `Session` (log 16); the canonical form of memory in
the invariant is the model's (DEDUCED, log 19). -/
def Obligations.LoadCopiesTheImage : Prop :=
  ∀ image : List Byte, image.length ≤ 256 →
    ∃ e : Session, Session.construct.load image = .ok (e, .success) ∧
      (∀ a, a < 256 → e.engine.mem.read a = some (image.getD a 0#8)) ∧
      { e.engine with mem := [] } = State.reset ∧
      (∀ image' : List Byte, e.load image' = .error .secondLoad) ∧
      e.engine.start.Inv

/-- An image of more than 256 bytes fails with ProgramTooLarge and its length, writes nothing, and admits neither a run nor
another load (60_exceptions.md R137, 10_state.md R34; admission is the spec's decision D10, log 8, 16). -/
def Obligations.OversizeImageFailsTheLoad : Prop :=
  ∀ image : List Byte, 256 < image.length →
    ∃ e : Session, Session.construct.load image = .ok (e, .programTooLarge image.length) ∧
      e.engine = State.reset ∧
      (∀ v : OpcodeValue, e.run v = .error .runAfterFailedLoad) ∧
      (∀ image' : List Byte, e.load image' = .error .secondLoad)

/-- `run` is admitted once, with or without a load before it: it sets both flags, performs steps until none is enabled, and
answers halted or the fault record; then neither a second run nor a load is admitted (40_execution_loop.md R80, R88). The
admission is the spec's decisions D10 and D12 (log 8, 9) and reads `Session.phase`, the model's own bookkeeping (log 16); the
end state is given by at most 257 steps, the bound that R89 derives (DEDUCED, log 18). -/
def Obligations.RunIsAdmittedOnce : Prop :=
  ∀ (v : OpcodeValue) (e : Session), e.engine.started = false → e.phase ≠ .loadFailed →
    ∃ (e' : Session) (reply : RunReply), e.run v = .ok (e', reply) ∧
      e'.engine = runLoop v 257 { e.engine with started := true, running := true } ∧
      (reply = .halted ∧ e'.engine.Halted ∨ ∃ r : Event, reply = .faulted r ∧ e'.engine.fault = some r) ∧
      (∀ v' : OpcodeValue, e'.run v' = .error .secondRun) ∧
      (∀ image : List Byte, e'.load image = .error .loadAfterRun)

/-- What the caller inspects is the state: all 256 cells in order, the registers, `pc`, `running`, the traces and the fault
record (00_scope.md R11, 40_execution_loop.md R88). That inspection is answered in every phase, also before `load` and `run`,
is the model's choice (log 24). -/
def Obligations.InspectionShowsTheState : Prop :=
  ∀ (e : Session),
    e.inspect.mem.length = 256 ∧ (∀ a, e.inspect.mem[a]? = e.engine.mem.read a) ∧
    e.inspect.x = e.engine.x ∧ e.inspect.pc = e.engine.pc ∧ e.inspect.running = e.engine.running ∧
    e.inspect.out = e.engine.out ∧ e.inspect.diag = e.engine.diag ∧ e.inspect.fault = e.engine.fault
end

