-- ==== Sys2Proof/Laws/Memory.lean ====
section
/-! SUPPORT. The laws of memory: what a read says after a write, and that every operation keeps the canonical form. -/

namespace Sys2Proof.Machine

/-- A cell below every listed address is unlisted. -/
theorem Memory.cell_below {m : Memory} {a : Nat} (h : ∀ p ∈ m, a < p.1) : m.cell a = Memory.unlisted := by
  induction m with
  | nil => rfl
  | cons p m ih =>
    have hp := h p (List.mem_cons_self ..)
    have : a ≠ p.1 := Nat.ne_of_lt hp
    simp only [Memory.cell, this, if_false]
    exact ih fun q hq => h q (List.mem_cons_of_mem _ hq)

/-- The read-after-write law on cells. -/
theorem Memory.cell_put {m : Memory} (hm : m.Pairwise fun p q => p.1 < q.1) (a b : Nat) (v : Byte) :
    (m.put a v).cell b = if b = a then v else m.cell b := by
  induction m with
  | nil =>
    by_cases hv : v = Memory.unlisted <;> by_cases hb : b = a <;> simp [Memory.put, Memory.cell, hv, hb]
  | cons p m ih =>
    obtain ⟨hp, hm⟩ := List.pairwise_cons.mp hm
    rcases lt_trichotomy a p.1 with h | h | h
    · have below : b = a → Memory.cell (p :: m) b = Memory.unlisted := fun hb =>
        Memory.cell_below fun q hq => by
          rcases List.mem_cons.mp hq with rfl | hq
          · omega
          · exact hb ▸ h.trans (hp q hq)
      by_cases hv : v = Memory.unlisted
      · by_cases hb : b = a
        · subst hb
          simp only [Memory.put, h, hv, if_true, below rfl]
        · simp [Memory.put, h, hv, hb]
      · simp [Memory.put, h, hv, Memory.cell]
    · have below : Memory.cell m p.1 = Memory.unlisted := Memory.cell_below hp
      by_cases hv : v = Memory.unlisted <;> by_cases hb : b = p.1 <;> simp [Memory.put, Memory.cell, h, hv, hb, below]
    · have h1 : ¬ a < p.1 := by omega
      have h2 : a ≠ p.1 := by omega
      by_cases hb : b = p.1
      · have : p.1 ≠ a := by omega
        simp [Memory.put, h1, h2, Memory.cell, hb, this]
      · simp [Memory.put, h1, h2, Memory.cell, hb, ih hm]

/-- A cell of a list written to is one of the old ones or the written one. -/
theorem Memory.mem_put {m : Memory} {a : Nat} {v : Byte} {p : Host.Cell} (h : p ∈ m.put a v) :
    p ∈ m ∨ p = (a, v) ∧ v ≠ Memory.unlisted := by
  induction m with
  | nil =>
    by_cases hv : v = Memory.unlisted
    · simp [Memory.put, hv] at h
    · simp only [Memory.put, hv, if_false, List.mem_singleton] at h
      exact .inr ⟨h, hv⟩
  | cons q m ih =>
    simp only [Memory.put] at h
    split at h <;> split at h
    · exact .inl h
    · rename_i hv
      rcases List.mem_cons.mp h with h | h
      · exact .inr ⟨h, hv⟩
      · exact .inl h
    · split at h
      · exact .inl (List.mem_cons_of_mem _ h)
      · rename_i hv
        rcases List.mem_cons.mp h with h | h
        · exact .inr ⟨h, hv⟩
        · exact .inl (List.mem_cons_of_mem _ h)
    · rcases List.mem_cons.mp h with rfl | h
      · exact .inl (List.mem_cons_self ..)
      · exact (ih h).imp (List.mem_cons_of_mem _) id

/-- Writing a cell inside memory keeps the canonical form. -/
theorem Memory.put_wf {m : Memory} (hm : m.wf) {a : Nat} (ha : a < Config.memSize) (v : Byte) : (m.put a v).wf := by
  refine ⟨?_, fun p hp => ?_⟩
  · have hs := hm.1
    clear hm
    induction m with
    | nil => by_cases hv : v = Memory.unlisted <;> simp [Memory.put, hv]
    | cons q m ih =>
      obtain ⟨hq, hm⟩ := List.pairwise_cons.mp hs
      simp only [Memory.put]
      split
      · rename_i h
        split
        · exact hs
        · refine List.pairwise_cons.mpr ⟨fun p hp => ?_, hs⟩
          rcases List.mem_cons.mp hp with rfl | hp
          · exact h
          · exact h.trans (hq p hp)
      · split
        · rename_i h
          split
          · exact hm
          · exact List.pairwise_cons.mpr ⟨h ▸ hq, hm⟩
        · refine List.pairwise_cons.mpr ⟨fun p hp => ?_, ih hm⟩
          rcases Memory.mem_put hp with hp | ⟨rfl, -⟩
          · exact hq p hp
          · show q.1 < a
            omega
  · rcases Memory.mem_put hp with hp | ⟨rfl, hv⟩
    · exact hm.2 p hp
    · exact ⟨hv, ha⟩

theorem Memory.write_wf {m m' : Memory} (hm : m.wf) {a : Nat} {v : Byte} (h : m.write a v = some m') : m'.wf := by
  unfold Memory.write at h
  split at h
  · rename_i ha
    obtain rfl := Option.some.inj h
    exact Memory.put_wf hm ha v
  · cases h

theorem Memory.writeBytes_wf {m : Memory} (hm : m.wf) (a : Nat) (bs : List Byte) : (m.writeBytes a bs).wf := by
  induction bs generalizing m a with
  | nil => exact hm
  | cons b bs ih =>
    refine ih ?_ (a + 1)
    cases h : m.write a b with
    | none => exact hm
    | some m' => exact Memory.write_wf hm h

theorem Memory.reset_wf : State.reset.mem.wf := by decide

theorem Memory.read_of_lt {m : Memory} {a : Nat} (h : a < Config.memSize) : m.read a = some (m.cell a) := by
  simp only [Memory.read, h, if_true]

theorem Memory.read_of_ge {m : Memory} {a : Nat} (h : ¬ a < Config.memSize) : m.read a = none := by
  simp only [Memory.read, h, if_false]

/-- A read that answers is a read inside memory. -/
theorem Memory.lt_of_read {m : Memory} {a : Nat} {b : Byte} (h : m.read a = some b) : a < Config.memSize := by
  by_contra h'
  simp [Memory.read_of_ge h'] at h

theorem Memory.write_of_lt {m : Memory} {a : Nat} {v : Byte} (h : a < Config.memSize) : m.write a v = some (m.put a v) := by
  simp only [Memory.write, h, if_true]

theorem Memory.write_of_ge {m : Memory} {a : Nat} {v : Byte} (h : ¬ a < Config.memSize) : m.write a v = none := by
  simp only [Memory.write, h, if_false]

/-- The read-after-write law on reads inside memory. -/
theorem Memory.read_put {m : Memory} (hm : m.wf) {a : Nat} (ha : a < Config.memSize) (b : Nat) (v : Byte) :
    (m.put a v).read b = if b = a then some v else m.read b := by
  by_cases hb : b < Config.memSize
  · rw [Memory.read_of_lt hb, Memory.read_of_lt hb, Memory.cell_put hm.1]
    split <;> rfl
  · have : b ≠ a := fun h => hb (h ▸ ha)
    simp only [Memory.read_of_ge hb, this, if_false]

/-- Every address an 8-bit register holds is inside memory (20_memory.md R55). -/
theorem byte_lt_memSize (b : Byte) : b.toNat < Config.memSize := b.isLt

end Sys2Proof.Machine
end

