-- ==== Sys2Proof/Laws/State.lean ====
section
/-! SUPPORT. One lemma per field of State per named update, true by `rfl`, so that no later proof unfolds a record update. -/

namespace Sys2Proof.Machine

section Fields
variable (s : State)

@[simp] theorem State.setReg_mem (d : Fin Config.nreg) (v : Byte) : (s.setReg d v).mem = s.mem := rfl
@[simp] theorem State.setReg_x (d : Fin Config.nreg) (v : Byte) : (s.setReg d v).x = s.x.set d v := rfl
@[simp] theorem State.setReg_pc (d : Fin Config.nreg) (v : Byte) : (s.setReg d v).pc = s.pc := rfl
@[simp] theorem State.setReg_running (d : Fin Config.nreg) (v : Byte) : (s.setReg d v).running = s.running := rfl
@[simp] theorem State.setReg_fault (d : Fin Config.nreg) (v : Byte) : (s.setReg d v).fault = s.fault := rfl
@[simp] theorem State.setReg_out (d : Fin Config.nreg) (v : Byte) : (s.setReg d v).out = s.out := rfl
@[simp] theorem State.setReg_diag (d : Fin Config.nreg) (v : Byte) : (s.setReg d v).diag = s.diag := rfl
@[simp] theorem State.setReg_started (d : Fin Config.nreg) (v : Byte) : (s.setReg d v).started = s.started := rfl

@[simp] theorem State.setMem_mem (m : Memory) : (s.setMem m).mem = m := rfl
@[simp] theorem State.setMem_x (m : Memory) : (s.setMem m).x = s.x := rfl
@[simp] theorem State.setMem_pc (m : Memory) : (s.setMem m).pc = s.pc := rfl
@[simp] theorem State.setMem_running (m : Memory) : (s.setMem m).running = s.running := rfl
@[simp] theorem State.setMem_fault (m : Memory) : (s.setMem m).fault = s.fault := rfl
@[simp] theorem State.setMem_out (m : Memory) : (s.setMem m).out = s.out := rfl
@[simp] theorem State.setMem_diag (m : Memory) : (s.setMem m).diag = s.diag := rfl
@[simp] theorem State.setMem_started (m : Memory) : (s.setMem m).started = s.started := rfl

@[simp] theorem State.advance_mem (w : Nat) : (s.advance w).mem = s.mem := rfl
@[simp] theorem State.advance_x (w : Nat) : (s.advance w).x = s.x := rfl
@[simp] theorem State.advance_pc (w : Nat) : (s.advance w).pc = s.pc + w := rfl
@[simp] theorem State.advance_running (w : Nat) : (s.advance w).running = s.running := rfl
@[simp] theorem State.advance_fault (w : Nat) : (s.advance w).fault = s.fault := rfl
@[simp] theorem State.advance_out (w : Nat) : (s.advance w).out = s.out := rfl
@[simp] theorem State.advance_diag (w : Nat) : (s.advance w).diag = s.diag := rfl
@[simp] theorem State.advance_started (w : Nat) : (s.advance w).started = s.started := rfl

@[simp] theorem State.emitOut_mem (v : Byte) : (s.emitOut v).mem = s.mem := rfl
@[simp] theorem State.emitOut_x (v : Byte) : (s.emitOut v).x = s.x := rfl
@[simp] theorem State.emitOut_pc (v : Byte) : (s.emitOut v).pc = s.pc := rfl
@[simp] theorem State.emitOut_running (v : Byte) : (s.emitOut v).running = s.running := rfl
@[simp] theorem State.emitOut_fault (v : Byte) : (s.emitOut v).fault = s.fault := rfl
@[simp] theorem State.emitOut_out (v : Byte) : (s.emitOut v).out = s.out ++ [v] := rfl
@[simp] theorem State.emitOut_diag (v : Byte) : (s.emitOut v).diag = s.diag := rfl
@[simp] theorem State.emitOut_started (v : Byte) : (s.emitOut v).started = s.started := rfl

@[simp] theorem State.emitDiag_mem (e : Event) : (s.emitDiag e).mem = s.mem := rfl
@[simp] theorem State.emitDiag_x (e : Event) : (s.emitDiag e).x = s.x := rfl
@[simp] theorem State.emitDiag_pc (e : Event) : (s.emitDiag e).pc = s.pc := rfl
@[simp] theorem State.emitDiag_running (e : Event) : (s.emitDiag e).running = s.running := rfl
@[simp] theorem State.emitDiag_fault (e : Event) : (s.emitDiag e).fault = s.fault := rfl
@[simp] theorem State.emitDiag_out (e : Event) : (s.emitDiag e).out = s.out := rfl
@[simp] theorem State.emitDiag_diag (e : Event) : (s.emitDiag e).diag = s.diag ++ [e] := rfl
@[simp] theorem State.emitDiag_started (e : Event) : (s.emitDiag e).started = s.started := rfl

@[simp] theorem State.start_mem : (s.start).mem = s.mem := rfl
@[simp] theorem State.start_x : (s.start).x = s.x := rfl
@[simp] theorem State.start_pc : (s.start).pc = s.pc := rfl
@[simp] theorem State.start_running : (s.start).running = true := rfl
@[simp] theorem State.start_fault : (s.start).fault = s.fault := rfl
@[simp] theorem State.start_out : (s.start).out = s.out := rfl
@[simp] theorem State.start_diag : (s.start).diag = s.diag := rfl
@[simp] theorem State.start_started : (s.start).started = true := rfl

@[simp] theorem State.stopRunning_mem : (s.stopRunning).mem = s.mem := rfl
@[simp] theorem State.stopRunning_x : (s.stopRunning).x = s.x := rfl
@[simp] theorem State.stopRunning_pc : (s.stopRunning).pc = s.pc := rfl
@[simp] theorem State.stopRunning_running : (s.stopRunning).running = false := rfl
@[simp] theorem State.stopRunning_fault : (s.stopRunning).fault = s.fault := rfl
@[simp] theorem State.stopRunning_out : (s.stopRunning).out = s.out := rfl
@[simp] theorem State.stopRunning_diag : (s.stopRunning).diag = s.diag := rfl
@[simp] theorem State.stopRunning_started : (s.stopRunning).started = s.started := rfl

@[simp] theorem State.raise_mem (k : Kind) (a : Option Nat) (r : Option Byte) : (s.raise k a r).mem = s.mem := rfl
@[simp] theorem State.raise_x (k : Kind) (a : Option Nat) (r : Option Byte) : (s.raise k a r).x = s.x := rfl
@[simp] theorem State.raise_pc (k : Kind) (a : Option Nat) (r : Option Byte) : (s.raise k a r).pc = s.pc := rfl
@[simp] theorem State.raise_running (k : Kind) (a : Option Nat) (r : Option Byte) : (s.raise k a r).running = s.running := rfl
@[simp] theorem State.raise_fault (k : Kind) (a : Option Nat) (r : Option Byte) : (s.raise k a r).fault = some (s.record k a r) := rfl
@[simp] theorem State.raise_out (k : Kind) (a : Option Nat) (r : Option Byte) : (s.raise k a r).out = s.out := rfl
@[simp] theorem State.raise_diag (k : Kind) (a : Option Nat) (r : Option Byte) : (s.raise k a r).diag = s.diag ++ [s.record k a r] := rfl
@[simp] theorem State.raise_started (k : Kind) (a : Option Nat) (r : Option Byte) : (s.raise k a r).started = s.started := rfl

@[simp] theorem State.raiseAddress_mem (a : Nat) : (s.raiseAddress a).mem = s.mem := rfl
@[simp] theorem State.raiseAddress_x (a : Nat) : (s.raiseAddress a).x = s.x := rfl
@[simp] theorem State.raiseAddress_pc (a : Nat) : (s.raiseAddress a).pc = s.pc := rfl
@[simp] theorem State.raiseAddress_running (a : Nat) : (s.raiseAddress a).running = s.running := rfl
@[simp] theorem State.raiseAddress_fault (a : Nat) : (s.raiseAddress a).fault = some (s.record .addressOutOfRange (some a) none) := rfl
@[simp] theorem State.raiseAddress_out (a : Nat) : (s.raiseAddress a).out = s.out := rfl
@[simp] theorem State.raiseAddress_diag (a : Nat) : (s.raiseAddress a).diag = s.diag ++ [s.record .addressOutOfRange (some a) none] := rfl
@[simp] theorem State.raiseAddress_started (a : Nat) : (s.raiseAddress a).started = s.started := rfl

@[simp] theorem State.raiseRegister_mem (r : Byte) : (s.raiseRegister r).mem = s.mem := rfl
@[simp] theorem State.raiseRegister_x (r : Byte) : (s.raiseRegister r).x = s.x := rfl
@[simp] theorem State.raiseRegister_pc (r : Byte) : (s.raiseRegister r).pc = s.pc := rfl
@[simp] theorem State.raiseRegister_running (r : Byte) : (s.raiseRegister r).running = s.running := rfl
@[simp] theorem State.raiseRegister_fault (r : Byte) : (s.raiseRegister r).fault = some (s.record .registerOutOfRange none (some r)) := rfl
@[simp] theorem State.raiseRegister_out (r : Byte) : (s.raiseRegister r).out = s.out := rfl
@[simp] theorem State.raiseRegister_diag (r : Byte) : (s.raiseRegister r).diag = s.diag ++ [s.record .registerOutOfRange none (some r)] := rfl
@[simp] theorem State.raiseRegister_started (r : Byte) : (s.raiseRegister r).started = s.started := rfl

@[simp] theorem State.raiseUnsupported_mem : (s.raiseUnsupported).mem = s.mem := rfl
@[simp] theorem State.raiseUnsupported_x : (s.raiseUnsupported).x = s.x := rfl
@[simp] theorem State.raiseUnsupported_pc : (s.raiseUnsupported).pc = s.pc := rfl
@[simp] theorem State.raiseUnsupported_running : (s.raiseUnsupported).running = s.running := rfl
@[simp] theorem State.raiseUnsupported_fault : (s.raiseUnsupported).fault = some (s.record .unsupportedOperation none none) := rfl
@[simp] theorem State.raiseUnsupported_out : (s.raiseUnsupported).out = s.out := rfl
@[simp] theorem State.raiseUnsupported_diag : (s.raiseUnsupported).diag = s.diag ++ [s.record .unsupportedOperation none none] := rfl
@[simp] theorem State.raiseUnsupported_started : (s.raiseUnsupported).started = s.started := rfl

@[simp] theorem State.unknown_mem (opc : Byte) : (s.unknown opc).mem = s.mem := rfl
@[simp] theorem State.unknown_x (opc : Byte) : (s.unknown opc).x = s.x := rfl
@[simp] theorem State.unknown_pc (opc : Byte) : (s.unknown opc).pc = s.pc + 1 := rfl
@[simp] theorem State.unknown_running (opc : Byte) : (s.unknown opc).running = s.running := rfl
@[simp] theorem State.unknown_fault (opc : Byte) : (s.unknown opc).fault = s.fault := rfl
@[simp] theorem State.unknown_out (opc : Byte) : (s.unknown opc).out = s.out := rfl
@[simp] theorem State.unknown_diag (opc : Byte) : (s.unknown opc).diag = s.diag ++ [⟨.unknownInstruction, s.pc, some opc, none, none⟩] := rfl
@[simp] theorem State.unknown_started (opc : Byte) : (s.unknown opc).started = s.started := rfl

end Fields

/-- Reading the register just written, or another one. -/
theorem State.reg_setReg (s : State) (d e : Fin Config.nreg) (v : Byte) :
    (s.setReg d v).reg e = if e = d then v else s.reg e := by
  unfold State.reg State.setReg
  by_cases h : e = d
  · subst h; simp
  · have : (d : Nat) ≠ e := fun h' => h (Fin.ext h'.symm)
    simp [h, this]

@[simp] theorem State.reg_setReg_same (s : State) (d : Fin Config.nreg) (v : Byte) : (s.setReg d v).reg d = v := by
  simp [State.reg_setReg]

/-- `reg` sees the register file alone: an update of anything else leaves it. -/
theorem State.reg_congr {s t : State} (h : t.x = s.x) (d : Fin Config.nreg) : t.reg d = s.reg d := by
  simp [State.reg, h]

theorem State.sp_eq (s : State) : s.sp = s.reg Config.spIndex := rfl

end Sys2Proof.Machine
end

