-- ==== Sys2Proof/Laws/Ops.lean ====
section
/-! SUPPORT. What each shared operation can do, said once: the operand checks, the register check, the memory accesses,
the ALU, the fetch, and one step. -/

namespace Sys2Proof.Machine

/-- All operand bytes lie in memory exactly when the last one does. -/
theorem firstBadOperand_eq_none {pc n : Nat} (hpc : pc < Config.memSize) :
    firstBadOperand pc n = none ↔ pc + n < Config.memSize := by
  simp only [firstBadOperand, List.find?_eq_none, List.mem_range'_1]
  constructor
  · intro h
    rcases Nat.eq_zero_or_pos n with rfl | hn
    · simpa using hpc
    · have := h (pc + n) ⟨by omega, by omega⟩
      simpa using this
  · intro h a ha
    simp
    omega

/-- The first operand address outside memory, where the opcode byte is inside it, is 256. -/
theorem firstBadOperand_eq_some {pc n : Nat} (hpc : pc < Config.memSize) (h : Config.memSize ≤ pc + n) :
    firstBadOperand pc n = some Config.memSize := by
  simp only [firstBadOperand, List.find?_range'_eq_some]
  refine ⟨by simp, ?_, ?_⟩
  · simp [List.mem_range'_1]; omega
  · intro j h1 h2
    simp; omega

theorem withOperandBytes_fits {w : Nat} {s : State} {k : Host.Outcome State Fault Refusal} (hpc : s.pc < Config.memSize)
    (h : s.pc + (w - 1) < Config.memSize) : withOperandBytes w s k = k := by
  simp only [withOperandBytes, (firstBadOperand_eq_none hpc).mpr h]

theorem withOperandBytes_overrun {w : Nat} {s : State} {k : Host.Outcome State Fault Refusal}
    (hpc : s.pc < Config.memSize) (h : Config.memSize ≤ s.pc + (w - 1)) :
    withOperandBytes w s k = .next (s.raiseAddress Config.memSize) := by
  simp only [withOperandBytes, firstBadOperand_eq_some hpc h]

/-- `withOperandBytes` raises AddressOutOfRange at an address outside memory, or goes on. -/
theorem withOperandBytes_cases (w : Nat) (s : State) (k : Host.Outcome State Fault Refusal) :
    (∃ a, Config.memSize ≤ a ∧ withOperandBytes w s k = .next (s.raiseAddress a)) ∨ withOperandBytes w s k = k := by
  unfold withOperandBytes
  cases h : firstBadOperand s.pc (w - 1) with
  | none => exact .inr rfl
  | some a => exact .inl ⟨a, by simpa using List.find?_some h, rfl⟩

theorem registerIndex_of_lt {r : Byte} (h : r.toNat < Config.nreg) : registerIndex r = some ⟨r.toNat, h⟩ := by
  simp only [registerIndex, h, dite_true]

theorem registerIndex_of_ge {r : Byte} (h : Config.nreg ≤ r.toNat) : registerIndex r = none := by
  simp only [registerIndex, Nat.not_lt.mpr h, dite_false]

theorem registerIndex_some {r : Byte} {d : Fin Config.nreg} : registerIndex r = some d ↔ r.toNat = d := by
  unfold registerIndex
  split
  · simp [Fin.ext_iff]
  · simp; omega

/-- `withRegister` raises RegisterOutOfRange at an index of 8 or more, or goes on with the index. -/
theorem withRegister_cases (r : Byte) (s : State) (k : Fin Config.nreg → Host.Outcome State Fault Refusal) :
    (Config.nreg ≤ r.toNat ∧ withRegister r s k = .next (s.raiseRegister r)) ∨
      ∃ d : Fin Config.nreg, r.toNat = d ∧ withRegister r s k = k d := by
  by_cases h : r.toNat < Config.nreg
  · exact .inr ⟨⟨r.toNat, h⟩, rfl, by simp only [withRegister, registerIndex_of_lt h]⟩
  · exact .inl ⟨Nat.not_lt.mp h, by simp only [withRegister, registerIndex_of_ge (Nat.not_lt.mp h)]⟩

theorem withRegister_index {r : Byte} {d : Fin Config.nreg} (h : r.toNat = d) (s : State)
    (k : Fin Config.nreg → Host.Outcome State Fault Refusal) : withRegister r s k = k d := by
  simp only [withRegister, registerIndex_some.mpr h]

/-- A stack read never raises (20_memory.md R55). -/
theorem memRead_byte (s : State) (b : Byte) (k : Byte → Host.Outcome State Fault Refusal) :
    memRead s b.toNat k = k (s.mem.cell b.toNat) := by
  simp only [memRead, Memory.read_of_lt (byte_lt_memSize b)]

/-- A stack write never raises (20_memory.md R55). -/
theorem memWrite_byte (s : State) (b v : Byte) (k : Memory → Host.Outcome State Fault Refusal) :
    memWrite s b.toNat v k = k (s.mem.put b.toNat v) := by
  simp only [memWrite, Memory.write_of_lt (byte_lt_memSize b)]

theorem aluApply_multiply (d e : Fin Config.nreg) (s : State) (k : State → Host.Outcome State Fault Refusal) :
    aluApply .multiply d e s k = k (s.setReg d (product (s.reg d) (s.reg e))) := rfl

/-- The fetched bytes begin with the opcode byte, if there is one. -/
theorem fetchBytes_of_read {s : State} {b : Byte} (h : s.mem.read s.pc = some b) :
    s.fetchBytes = b :: s.mem.readBytes 2 (s.pc + 1) := by
  simp only [State.fetchBytes, Memory.readBytes, h]

theorem fetchBytes_of_none {s : State} (h : s.mem.read s.pc = none) : s.fetchBytes = [] := by
  simp only [State.fetchBytes, Memory.readBytes, h]

theorem readBytes_cons {m : Memory} {n a : Nat} {b : Byte} (h : m.read a = some b) :
    m.readBytes (n + 1) a = b :: m.readBytes n (a + 1) := by
  simp only [Memory.readBytes, h]

theorem readBytes_none {m : Memory} {n a : Nat} (h : m.read a = none) : m.readBytes (n + 1) a = [] := by
  simp only [Memory.readBytes, h]

theorem stuck_eq_none {s : State} : s.stuck = none ↔ s.Enabled := by
  unfold State.stuck State.Enabled
  cases s.fault <;> cases s.running <;> cases s.started <;> simp

/-- What one step can do: it is enabled, and either no whole instruction lies at `pc` or the decoded one runs. -/
theorem stepWith_cases {v : OpcodeValue} {s t : State} (h : stepWith v s = .next t) :
    s.Enabled ∧
      ((∃ e, decode v s.fetchBytes = .error e ∧ t = s.undecoded e) ∨
        ∃ i rest, decode v s.fetchBytes = .ok (i, rest) ∧ exec i s = .next t) := by
  unfold stepWith at h
  cases hs : s.stuck with
  | some f => simp [hs] at h
  | none =>
    refine ⟨stuck_eq_none.mp hs, ?_⟩
    simp only [hs] at h
    cases hd : decode v s.fetchBytes with
    | error e =>
      simp only [hd, Host.Outcome.next.injEq] at h
      exact .inl ⟨e, rfl, h.symm⟩
    | ok p =>
      simp only [hd] at h
      exact .inr ⟨p.1, p.2, rfl, h⟩

theorem stepWith_of_decoded {v : OpcodeValue} {s : State} (hs : s.Enabled) {i : Instr} {rest : List Byte}
    (h : decode v s.fetchBytes = .ok (i, rest)) : stepWith v s = exec i s := by
  simp only [stepWith, stuck_eq_none.mpr hs, h]

theorem stepWith_of_undecoded {v : OpcodeValue} {s : State} (hs : s.Enabled) {e : DecodeError}
    (h : decode v s.fetchBytes = .error e) : stepWith v s = .next (s.undecoded e) := by
  simp only [stepWith, stuck_eq_none.mpr hs, h]

theorem runLoop_next {v : OpcodeValue} {n : Nat} {s t : State} (h : stepWith v s = .next t) :
    runLoop v (n + 1) s = runLoop v n t := by
  simp only [runLoop, h]

end Sys2Proof.Machine
end

