-- ==== Sys2Proof/Laws/PerInstr.lean ====
section
/-! SUPPORT. Statements for all instructions, one lemma per constructor: the encoding of an instruction is as long as its
width, its opcode byte followed by its operands (spec/30_encoding.md R60, R61). -/

namespace Sys2Proof.Laws

def EncodeLayout.Statement (i : Instr) : Prop :=
  ∀ v : OpcodeValue, encode v i = v.byte i.opcode :: i.operands ∧ (encode v i).length = i.opcode.width

theorem EncodeLayout.hlt : EncodeLayout.Statement .hlt := fun _ => ⟨rfl, rfl⟩

theorem EncodeLayout.ldi (r i : Byte) : EncodeLayout.Statement (.ldi r i) := fun _ => ⟨rfl, rfl⟩

theorem EncodeLayout.prn (r : Byte) : EncodeLayout.Statement (.prn r) := fun _ => ⟨rfl, rfl⟩

theorem EncodeLayout.mul (a b : Byte) : EncodeLayout.Statement (.mul a b) := fun _ => ⟨rfl, rfl⟩

theorem EncodeLayout.push (r : Byte) : EncodeLayout.Statement (.push r) := fun _ => ⟨rfl, rfl⟩

theorem EncodeLayout.pop (r : Byte) : EncodeLayout.Statement (.pop r) := fun _ => ⟨rfl, rfl⟩

end Sys2Proof.Laws
end

