-- ==== Sys2Proof/Tests/Slice0.lean ====
section
/-! SUPPORT. Small tests, their expected values from spec/95_test_vectors.md (S and V numbers) and spec/30_encoding.md, and
one witness for each statement of Certificates/Slice0/Obligations.lean that has hypotheses. -/

namespace Sys2Proof.Tests

open Sys2Proof.Machine

/-- A running engine with some bytes at `pc`. -/
def running (pc : Nat) (bs : List Byte) : State :=
  { State.reset.start with pc := pc, mem := Memory.writeBytes [] pc bs }

/-- The next state, if that is the outcome. -/
def nextOf (o : Host.Outcome State Fault Refusal) : Option State :=
  match o with
  | .next t => some t
  | .fault _ => none
  | .refused _ => none

/-- The stop, if that is the outcome. -/
def faultOf (o : Host.Outcome State Fault Refusal) : Option Fault :=
  match o with
  | .next _ => none
  | .fault f => some f
  | .refused _ => none

-- ==== Configuration and well-formedness ====

theorem test_default_opcodes_are_legal : OpcodeValue.default.Legal := by decide

theorem test_two_mnemonics_at_one_byte_are_refused :
    ¬ ({ OpcodeValue.default with pop := 0x45#8 } : OpcodeValue).Legal := by decide

theorem test_opcode_at_ff_is_refused : ¬ ({ OpcodeValue.default with hlt := 0xFF#8 } : OpcodeValue).Legal := by decide

theorem test_wellFormed_refuses_ldi : (Instr.ldi 8 5).wellFormed = false := by decide
theorem test_wellFormed_refuses_prn : (Instr.prn 8).wellFormed = false := by decide
theorem test_wellFormed_refuses_mul_first : (Instr.mul 8 0).wellFormed = false := by decide
theorem test_wellFormed_refuses_mul_second : (Instr.mul 0 9).wellFormed = false := by decide
theorem test_wellFormed_refuses_push : (Instr.push 255).wellFormed = false := by decide
theorem test_wellFormed_refuses_pop : (Instr.pop 9).wellFormed = false := by decide
theorem test_wellFormed_accepts : ([.hlt, .ldi 7 255, .prn 7, .mul 7 7, .push 7, .pop 0] : List Instr).all
    Instr.wellFormed = true := by decide

-- ==== Decoding: words written out from 30_encoding.md R61, R62 (format bit strings) ====

theorem test_decode_hlt : decode .default [0b00000001#8] = .ok (.hlt, []) := by decide
theorem test_decode_ldi : decode .default [0b10000010#8, 0b00000011#8, 0b11111111#8, 0b00000001#8] =
    .ok (.ldi 3 255, [1]) := by decide
theorem test_decode_prn : decode .default [0b01000111#8, 0b00000111#8] = .ok (.prn 7, []) := by decide
theorem test_decode_mul : decode .default [0b10100010#8, 0b00001000#8, 0b00001001#8] = .ok (.mul 8 9, []) := by decide
theorem test_decode_push : decode .default [0b01000101#8, 0b10000000#8] = .ok (.push 128, []) := by decide
theorem test_decode_pop : decode .default [0b01000110#8, 0b00000101#8] = .ok (.pop 5, []) := by decide
/-- 0x00 and 0xFF are unknown (R66). -/
theorem test_decode_unknown : decode .default [0x00#8, 1#8] = .error (.unknownOpcode 0x00#8) ∧
    decode .default [0xFF#8] = .error (.unknownOpcode 0xFF#8) := by decide
theorem test_decode_truncated : decode .default [] = .error .noOpcode ∧
    decode .default [0x47#8] = .error (.missingOperand 0x47#8 1) ∧
    decode .default [0xA2#8, 0#8] = .error (.missingOperand 0xA2#8 2) := by decide
/-- The same words, numbered as the opcode table numbers them; operand bits above `nbits` are 0. -/
theorem test_table_words : decodeTableWord 24 0xFF0382 = some (.ldi 3 255) ∧ decodeTableWord 8 0xFF0382 = some (.ldi 0 0) ∧
    decodeTableWord 16 0x0545 = some (.push 5) ∧ decodeTableWord 8 0xFF = none := by decide
/-- Another OPCODE_VALUE moves the opcodes and nothing else (R10). -/
theorem test_decode_other_map :
    decode { OpcodeValue.default with hlt := 0x82#8, ldi := 0x01#8 } [0x01#8, 2#8, 3#8] = .ok (.ldi 2 3, []) := by decide
/-- The spelling of R69. -/
theorem test_assembly : (Instr.ldi 0 8).assembly = "LDI R0, 8" ∧ (Instr.mul 0 1).assembly = "MUL R0, R1" ∧
    (Instr.pop 7).assembly = "POP R7" := by decide

-- ==== Instructions: one step each ====

/-- V11: HLT at 255. -/
theorem test_hlt_at_255 : (nextOf (step (running 255 [0x01#8]))).map (fun t => (t.running, t.pc, t.fault)) =
    some (false, 256, none) := by decide

/-- S5. -/
theorem test_ldi : (nextOf (step (running 0 [0x82#8, 3#8, 0xFF#8]))).map (fun t => (t.reg 3, t.pc)) =
    some (0xFF#8, 3) := by decide
/-- V10: the operand address is checked before the index. -/
theorem test_ldi_at_254 : (nextOf (step (running 254 [0x82#8, 9#8]))).map (fun t => (t.fault, t.pc, t.running)) =
    some (some ⟨.addressOutOfRange, 254, some 0x82#8, some 256, none⟩, 254, true) := by decide

/-- V14: PRN of the stack pointer. -/
theorem test_prn_sp : (nextOf (step (running 0 [0x47#8, 7#8]))).map (fun t => (t.out, t.sp, t.pc)) =
    some ([0xF4#8], 0xF4#8, 2) := by decide
/-- V17: a faulting PRN emits nothing. -/
theorem test_prn_bad_register : (nextOf (step (running 0 [0x47#8, 8#8]))).map (fun t => (t.out, t.fault, t.diag)) =
    some ([], some ⟨.registerOutOfRange, 0, some 0x47#8, none, some 8#8⟩,
      [⟨.registerOutOfRange, 0, some 0x47#8, none, some 8#8⟩]) := by decide

/-- V18f: 200 * 2 wraps to 144; the second source is unchanged. -/
theorem test_mul_wraps :
    (nextOf (step { running 0 [0xA2#8, 0#8, 1#8] with x := #v[200, 2, 0, 0, 0, 0, 0, 0xF4] })).map
      (fun t => (t.reg 0, t.reg 1, t.pc)) = some (144#8, 2#8, 3) := by decide
/-- V23: the first bad operand is reported. -/
theorem test_mul_first_bad_register : (nextOf (step (running 0 [0xA2#8, 8#8, 9#8]))).map State.fault =
    some (some ⟨.registerOutOfRange, 0, some 0xA2#8, none, some 8#8⟩) := by decide

/-- V26: the stack pointer wraps at 0. -/
theorem test_push_wraps :
    (nextOf (step { running 0 [0x45#8, 0#8] with x := #v[0x5A, 0, 0, 0, 0, 0, 0, 0] })).map
      (fun t => (t.sp, t.mem.read 0xFF, t.pc)) = some (0xFF#8, some 0x5A#8, 2) := by decide
/-- V27: PUSH R7 stores the decremented stack pointer. -/
theorem test_push_sp : (nextOf (step (running 0 [0x45#8, 7#8]))).map (fun t => (t.sp, t.mem.read 0xF3)) =
    some (0xF3#8, some 0xF3#8) := by decide

/-- V30: the stack pointer wraps at 0xFF. -/
theorem test_pop_wraps :
    (nextOf (step { running 0 [0x46#8, 0#8] with
        x := #v[0, 0, 0, 0, 0, 0, 0, 0xFF], mem := [(0, 0x46), (255, 0xAB)] })).map
      (fun t => (t.reg 0, t.sp, t.mem.read 0xFF)) = some (0xAB#8, 0#8, some 0xAB#8) := by decide
/-- V31: POP R7 increments what it loaded. -/
theorem test_pop_sp :
    (nextOf (step { running 0 [0x46#8, 7#8] with
        x := #v[0, 0, 0, 0, 0, 0, 0, 0xF3], mem := [(0, 0x46), (1, 7), (0xF3, 0x20)] })).map State.sp =
      some 0x21#8 := by decide

-- ==== The loop ====

/-- V1. -/
theorem test_unknown_opcode : (nextOf (step (running 0 [0x00#8]))).map (fun t => (t.diag, t.pc, t.running, t.fault)) =
    some ([⟨.unknownInstruction, 0, some 0#8, none, none⟩], 1, true, none) := by decide
/-- V3. -/
theorem test_fetch_at_256 : (nextOf (step (running 256 []))).map (fun t => (t.fault, t.pc)) =
    some (some ⟨.addressOutOfRange, 256, none, some 256, none⟩, 256) := by decide
theorem test_no_step_before_run : faultOf (step State.reset) = some .notStarted := by decide
theorem test_no_step_after_hlt : faultOf (step { running 1 [] with running := false }) = some .halted := by decide
/-- The host's first step: an instruction placed after reset is fetched and run. -/
theorem test_withFetchWord : (nextOf (step (State.reset.withFetchWord 24 0x080082))).map (fun t => (t.reg 0, t.pc)) =
    some (8#8, 3) := by decide

-- ==== The host interface ====

set_option maxRecDepth 4000 in
/-- V7. -/
theorem test_load_too_large :
    (Session.construct.load (List.replicate 257 1#8)).toOption.map (fun p => (p.1.engine.mem, p.1.phase, p.2)) =
      some ([], .loadFailed, .programTooLarge 257) := by decide
/-- S4: an unknown opcode, then HLT. -/
theorem test_run_halts :
    ((Session.construct.load [0xFF#8, 0x01#8]).bind fun p => p.1.run .default).toOption.map
      (fun p => (p.2, p.1.engine.pc, p.1.engine.diag, p.1.engine.running)) =
      some (.halted, 2, [⟨.unknownInstruction, 0, some 0xFF#8, none, none⟩], false) := by decide
theorem test_second_run_is_refused :
    (match (⟨running 0 [], .loaded⟩ : Session).run .default with | .error r => some r | .ok _ => none) =
      some .secondRun := by decide

-- ==== Witnesses: concrete data that meet a statement's hypotheses, clause by clause at the ends of its ranges ====

theorem witness_DecodeOfEncodeIsIdentity : OpcodeValue.default.Legal := by decide

theorem witness_DecodedBytesAreTheEncoding : decode .default [0x46#8, 255#8, 7#8] = .ok (.pop 255#8, [7#8]) := by decide

theorem witness_DispatchTableHoldsExactlySix :
    OpcodeValue.default.Legal ∧ ∀ m : Opcode, 0xFF#8 ≠ OpcodeValue.default.byte m :=
  ⟨by decide, fun m => by cases m <;> decide⟩

theorem running_inv {pc : Nat} (h : pc ≤ 256) (bs : List Byte) : (running pc bs).Inv :=
  ⟨Memory.writeBytes_wf Memory.reset_wf pc bs, h, (fun _ => rfl), (fun _ h => nomatch h), (fun _ _ h => nomatch h),
    fun h => absurd rfl h⟩

/-- Both forms of the step, from a state with `pc` at its bound. -/
theorem witness_EveryStepKeepsTheInvariant :
    (running 256 []).Inv ∧ (nextOf (stepWith .default (running 256 []))).isSome = true ∧
    (nextOf (step (running 256 []))).isSome = true :=
  ⟨running_inv (Nat.le_refl _) [], by decide, by decide⟩

theorem witness_StepRunsTheDecodedInstruction :
    OpcodeValue.default.Legal ∧ (running 255 [0x01#8]).Enabled ∧
    (running 255 [0x01#8]).BytesAt 255 (encode .default .hlt) ∧
    (running 253 [0x82#8, 7#8, 255#8]).Enabled ∧
    (running 253 [0x82#8, 7#8, 255#8]).BytesAt 253 (encode .default (.ldi 7 255)) := by decide

theorem witness_FetchReadsTheOpcodeOrRaises : (running 256 []).Enabled ∧ 256 ≤ (running 256 []).pc := by decide

theorem witness_UnknownOpcodeIsSkippedWithAnEvent :
    (running 255 [0x10#8]).Enabled ∧ (running 255 [0x10#8]).mem.read 255 = some 0x10#8 ∧
    (∀ m : Opcode, 0x10#8 ≠ OpcodeValue.default.byte m) ∧ (running 255 [0x10#8]).pc = 255 :=
  ⟨by decide, by decide, fun m => by cases m <;> decide, rfl⟩

/-- At 255 the first operand byte is missing, at 254 only the second. -/
theorem witness_OperandReadPastMemoryRaises :
    OpcodeValue.default.Legal ∧
    ((running 255 [0x47#8]).Enabled ∧ (running 255 [0x47#8]).mem.read 255 = some (OpcodeValue.default.byte .prn) ∧
      256 < 255 + Opcode.prn.width) ∧
    ((running 254 [0xA2#8, 9#8]).Enabled ∧
      (running 254 [0xA2#8, 9#8]).mem.read 254 = some (OpcodeValue.default.byte .mul) ∧
      256 < 254 + Opcode.mul.width) := by decide

theorem witness_HandlerRaisesBeforeItLooksAtRegisters :
    ((running 254 []).pc < 256 ∧ 256 < (running 254 []).pc + (Instr.ldi 9 0).opcode.width) ∧
    ((running 255 []).pc < 256 ∧ 256 < (running 255 []).pc + (Instr.pop 0).opcode.width) := by decide

/-- Each clause, with an index at an end of 8 to 255, the last bytes of memory, and index 7 on the legal side. -/
theorem witness_RegisterIndexOfEightOrMoreRaises :
    OpcodeValue.default.Legal ∧
    (running 253 [0x82#8, 8#8, 0#8]).Enabled ∧ (running 253 [0x82#8, 8#8, 0#8]).BytesAt 253 [0x82#8, 8#8, 0#8] ∧
    (running 254 [0x47#8, 255#8]).Enabled ∧ (running 254 [0x47#8, 255#8]).BytesAt 254 [0x47#8, 255#8] ∧
    (running 254 [0x45#8, 8#8]).Enabled ∧ (running 254 [0x45#8, 8#8]).BytesAt 254 [0x45#8, 8#8] ∧
    (running 254 [0x46#8, 8#8]).Enabled ∧ (running 254 [0x46#8, 8#8]).BytesAt 254 [0x46#8, 8#8] ∧
    (running 253 [0xA2#8, 8#8, 9#8]).Enabled ∧ (running 253 [0xA2#8, 8#8, 9#8]).BytesAt 253 [0xA2#8, 8#8, 9#8] ∧
    (running 253 [0xA2#8, 7#8, 8#8]).Enabled ∧ (running 253 [0xA2#8, 7#8, 8#8]).BytesAt 253 [0xA2#8, 7#8, 8#8] ∧
    (running 253 [0xA2#8, 7#8, 7#8]).Enabled ∧
    (running 253 [0xA2#8, 7#8, 7#8]).BytesAt 253 (encode .default (.mul 7 7)) ∧ (Instr.mul 7 7).wellFormed = true := by
  decide

/-- The three states in which no step is enabled. -/
theorem witness_StepIsEnabledExactlyWhileRunning :
    ({ running 0 [] with fault := some (addressRecord 0 none 0) } : State).Faulted ∧
    ({ running 0 [] with running := false } : State).Halted ∧
    (State.reset.started = false ∧ State.reset.running = false ∧ State.reset.fault = none) := by decide

theorem witness_HltStopsTheLoop : (running 255 [0x01#8]).started = true ∧ (running 255 [0x01#8]).fault = none := by decide

theorem witness_LdiLoadsItsImmediate :
    ((7#8 : Byte).toNat = (7 : Fin 8) ∧ (running 253 []).pc + 2 < 256) ∧
    (running 255 [0x82#8]).mem.read (running 255 [0x82#8]).pc = some OpcodeValue.default.ldi ∧
    (running 254 [0x82#8]).mem.read (running 254 [0x82#8]).pc = some OpcodeValue.default.ldi ∧
    ((running 253 [0x82#8, 8#8]).mem.read (running 253 [0x82#8, 8#8]).pc = some OpcodeValue.default.ldi ∧
      (running 253 [0x82#8, 8#8]).pc + 2 < 256 ∧ 8 ≤ (8#8 : Byte).toNat) := by decide

theorem witness_PrnEmitsTheRegister :
    ((0#8 : Byte).toNat = (0 : Fin 8) ∧ (running 254 []).pc + 1 < 256) ∧
    (running 255 [0x47#8]).mem.read (running 255 [0x47#8]).pc = some OpcodeValue.default.prn ∧
    ((running 254 [0x47#8, 255#8]).mem.read (running 254 [0x47#8, 255#8]).pc = some OpcodeValue.default.prn ∧
      (running 254 [0x47#8, 255#8]).pc + 1 < 256 ∧ 8 ≤ (255#8 : Byte).toNat) := by decide

theorem witness_MulStoresTheProductModulo256 :
    ((7#8 : Byte).toNat = (7 : Fin 8) ∧ (0#8 : Byte).toNat = (0 : Fin 8) ∧ (running 253 []).pc + 2 < 256) ∧
    (running 255 [0xA2#8]).mem.read (running 255 [0xA2#8]).pc = some OpcodeValue.default.mul ∧
    (running 254 [0xA2#8]).mem.read (running 254 [0xA2#8]).pc = some OpcodeValue.default.mul ∧
    ((running 253 [0xA2#8, 8#8]).mem.read (running 253 [0xA2#8, 8#8]).pc = some OpcodeValue.default.mul ∧
      (running 253 [0xA2#8, 8#8]).pc + 2 < 256 ∧ 8 ≤ (8#8 : Byte).toNat ∧ (7#8 : Byte).toNat < 8) := by decide

theorem witness_PushStoresBelowTheStackPointer :
    (running 254 [0x45#8, 7#8]).mem.wf ∧
    ((7#8 : Byte).toNat = (7 : Fin 8) ∧ (0#8 : Byte).toNat = (0 : Fin 8) ∧ (running 254 [0x45#8, 7#8]).pc + 1 < 256) ∧
    ((running 255 [0x45#8]).mem.wf ∧
      (running 255 [0x45#8]).mem.read (running 255 [0x45#8]).pc = some OpcodeValue.default.push) ∧
    ((running 254 [0x45#8, 8#8]).mem.wf ∧
      (running 254 [0x45#8, 8#8]).mem.read (running 254 [0x45#8, 8#8]).pc = some OpcodeValue.default.push ∧
      (running 254 [0x45#8, 8#8]).pc + 1 < 256 ∧ 8 ≤ (8#8 : Byte).toNat) := by decide

theorem witness_PopLoadsThenIncrements :
    ((7#8 : Byte).toNat = (7 : Fin 8) ∧ (0#8 : Byte).toNat = (0 : Fin 8) ∧ (running 254 []).pc + 1 < 256 ∧
      (running 254 []).mem.read ((running 254 []).reg 7).toNat = some 0#8) ∧
    (running 255 [0x46#8]).mem.read (running 255 [0x46#8]).pc = some OpcodeValue.default.pop ∧
    ((running 254 [0x46#8, 8#8]).mem.read (running 254 [0x46#8, 8#8]).pc = some OpcodeValue.default.pop ∧
      (running 254 [0x46#8, 8#8]).pc + 1 < 256 ∧ 8 ≤ (8#8 : Byte).toNat) := by decide

theorem witness_WellFormedInstructionCompletes :
    ((Instr.mul 7 0).wellFormed = true ∧ (running 253 []).pc + (Instr.mul 7 0).opcode.width ≤ 256) ∧
    (Instr.hlt.wellFormed = true ∧ (running 255 []).pc + Instr.hlt.opcode.width ≤ 256) := by decide

/-- Each of the five forms completes from a small state. -/
theorem witness_FrameOfTheNonStoringInstructions :
    ([.hlt, .ldi 7 1, .prn 7, .mul 7 0, .pop 7] : List Instr).all (fun i =>
      decide (i.opcode ≠ .push) && (nextOf (exec i (running 253 []))).isSome && i.wellFormed &&
        decide ((running 253 []).pc + i.opcode.width ≤ 256)) = true := by decide

theorem witness_FrameOfPush :
    (running 254 [0x45#8, 7#8]).mem.wf ∧ (nextOf (exec (.push 7) (running 254 [0x45#8, 7#8]))).isSome = true ∧
    (7#8 : Byte).toNat < 8 ∧ (running 254 [0x45#8, 7#8]).pc + 1 < 256 := by decide

theorem witness_RegisterAccessIsChecked : 8 ≤ (8#8 : Byte).toNat ∧ (7#8 : Byte).toNat = (7 : Fin 8) := by decide

theorem witness_MemoryReadIsChecked : 255 < 256 ∧ 256 ≤ 256 := by decide

theorem witness_MemoryWriteIsCheckedAndSetsOneCell : (running 255 [1#8]).mem.wf ∧ 255 < 256 ∧ 256 ≤ 256 := by decide

theorem witness_ReadsDetermineTheMemory :
    Memory.wf [(0, 1#8), (255, 2#8)] ∧ ∀ a, Memory.read [(0, 1#8), (255, 2#8)] a = Memory.read [(0, 1#8), (255, 2#8)] a :=
  ⟨by decide, fun _ => rfl⟩

/-- A step that sets a record. -/
theorem witness_UnsupportedOperationIsGuardedAndUnreachable :
    (nextOf (stepWith .default (running 256 []))).map State.fault = some (some (addressRecord 256 none 256)) := by decide

/-- A step that raises, one that completes, and one on an unknown byte. -/
theorem witness_PcAdvancesByTheWidth :
    OpcodeValue.default.Legal ∧
    (nextOf (stepWith .default (running 0 [0x47#8, 8#8]))).map (fun t => t.fault.isSome) = some true ∧
    ((nextOf (stepWith .default (running 253 [0x82#8]))).map (fun t => t.fault.isSome) = some false ∧
      (running 253 [0x82#8]).mem.read 253 = some (OpcodeValue.default.byte .ldi)) ∧
    ((nextOf (stepWith .default (running 255 [0xFF#8]))).map (fun t => t.fault.isSome) = some false ∧
      ∀ m : Opcode, (running 255 [0xFF#8]).mem.read 255 ≠ some (OpcodeValue.default.byte m)) :=
  ⟨by decide, by decide, by decide, by decide, fun m => by cases m <;> decide⟩

theorem witness_OnlyHltClearsRunning :
    OpcodeValue.default.Legal ∧ (nextOf (stepWith .default (running 255 [0x01#8]))).isSome = true := by decide

theorem witness_OnlyPrnWritesTheOutput :
    OpcodeValue.default.Legal ∧ (nextOf (stepWith .default (running 254 [0x47#8, 7#8]))).isSome = true := by decide

theorem witness_OnlyPushWritesMemory :
    OpcodeValue.default.Legal ∧ (running 254 [0x45#8, 7#8]).mem.wf ∧
    (nextOf (stepWith .default (running 254 [0x45#8, 7#8]))).isSome = true ∧
    (running 254 [0x46#8, 7#8]).mem.wf ∧
    (nextOf (stepWith .default (running 254 [0x46#8, 7#8]))).isSome = true ∧
    (running 254 [0x46#8, 7#8]).mem.read 254 ≠ some OpcodeValue.default.push := by decide

/-- Each record: the failed fetch, the operand byte at 256, and an index in the first operand and in MUL's second. -/
theorem witness_FatalConditionIsPrecise :
    (nextOf (stepWith .default (running 256 []))).map State.fault = some (some (addressRecord 256 none 256)) ∧
    (nextOf (stepWith .default (running 254 [0xA2#8, 9#8]))).map State.fault =
      some (some (addressRecord 254 (some 0xA2#8) 256)) ∧
    (nextOf (stepWith .default (running 0 [0x46#8, 8#8]))).map State.fault =
      some (some (registerRecord 0 (some 0x46#8) 8#8)) ∧
    (nextOf (stepWith .default (running 0 [0xA2#8, 7#8, 255#8]))).map State.fault =
      some (some (registerRecord 0 (some 0xA2#8) 255#8)) := by decide

theorem witness_AtMostOneEventPerStep : (nextOf (stepWith .default (running 255 [0xFF#8]))).isSome = true := by decide

/-- LDI in the last three bytes, an unknown byte at 255 and a failed fetch at 256, each with another memory that differs
from its own elsewhere. -/
theorem witness_StepSeesOnlyItsOwnBytes :
    (OpcodeValue.default.Legal ∧ Opcode.ldi ≠ .push ∧ Opcode.ldi ≠ .pop ∧
      (running 253 [0x82#8, 1#8, 2#8]).mem.read 253 = some (OpcodeValue.default.byte .ldi) ∧
      (∀ k, k < Opcode.ldi.width →
        Memory.read [(0, 9#8), (253, 0x82#8), (254, 1#8), (255, 2#8)] (253 + k) =
          (running 253 [0x82#8, 1#8, 2#8]).mem.read (253 + k)) ∧
      (nextOf (stepWith .default (running 253 [0x82#8, 1#8, 2#8]))).isSome = true) ∧
    ((running 255 [0xFF#8]).mem.read 255 = some 0xFF#8 ∧ (∀ m : Opcode, 0xFF#8 ≠ OpcodeValue.default.byte m) ∧
      Memory.read [(0, 9#8), (255, 0xFF#8)] 255 = some 0xFF#8 ∧
      (nextOf (stepWith .default (running 255 [0xFF#8]))).isSome = true) ∧
    (256 ≤ (running 256 []).pc ∧ (nextOf (stepWith .default (running 256 []))).isSome = true) :=
  ⟨by decide, ⟨by decide, fun m => by cases m <;> decide, by decide, by decide⟩, by decide⟩

/-- With the stack pointer at 0, which wraps. -/
theorem witness_PushThenPopMovesTheByte :
    let s : State := { running 0 [0x45#8, 3#8, 0x46#8, 5#8] with x := #v[0, 0, 0, 9, 0, 0, 0, 0] }
    OpcodeValue.default.Legal ∧ s.mem.wf ∧ s.Enabled ∧ (3 : Fin 8) ≠ 7 ∧ (5 : Fin 8) ≠ 7 ∧
    s.BytesAt s.pc [OpcodeValue.default.push, BitVec.ofNat 8 3, OpcodeValue.default.pop, BitVec.ofNat 8 5] ∧
    (s.reg 7 - 1).toNat ≠ s.pc + 2 ∧ (s.reg 7 - 1).toNat ≠ s.pc + 3 := by decide

/-- P3's shape: the pushed byte, here the HLT byte, replaces the next opcode; and PUSH R7 in the last two bytes, with the
stack pointer at 0, which wraps. -/
theorem witness_PushedByteIsFetchedByTheNextStep :
    let s : State := { running 6 [0x45#8, 0#8, 0x47#8] with x := #v[1, 0, 0, 0, 0, 0, 0, 9] }
    let s' : State := { running 254 [0x45#8, 7#8] with x := #v[0, 0, 0, 0, 0, 0, 0, 0] }
    (OpcodeValue.default.Legal ∧ s.mem.wf ∧ s.Enabled ∧ s.started = true ∧
      s.BytesAt s.pc [OpcodeValue.default.push, BitVec.ofNat 8 (0 : Fin 8)] ∧ (s.reg 7 - 1).toNat = s.pc + 2 + 0 ∧
      (if (0 : Fin 8) = 7 then s.reg 7 - 1 else s.reg 0) = OpcodeValue.default.hlt) ∧
    (s'.mem.wf ∧ s'.Enabled ∧ s'.BytesAt s'.pc [OpcodeValue.default.push, BitVec.ofNat 8 (7 : Fin 8)]) := by decide

/-- The pushed byte as the second operand byte of the next instruction. -/
theorem witness_PushedByteIsAnOperandOfTheNextStep :
    let s : State := { running 6 [0x45#8, 0#8, 0x82#8, 1#8, 2#8] with x := #v[5, 0, 0, 0, 0, 0, 0, 11] }
    s.BytesAt s.pc [OpcodeValue.default.push, BitVec.ofNat 8 (0 : Fin 8)] ∧ (s.reg 7 - 1).toNat = s.pc + 2 + 2 ∧ 2 < 3 := by
  decide

theorem witness_EveryRunEndsWithin257Steps : (running 0 []).started = true := by decide

theorem witness_HaltedRunStoppedAtAnHlt :
    OpcodeValue.default.Legal ∧ (running 254 [0xFF#8, 0x01#8]).Enabled ∧
    (runLoop .default 2 (running 254 [0xFF#8, 0x01#8])).Halted := by decide

theorem witness_TracesOnlyGrowAlongARun :
    ({ running 0 [] with fault := some (addressRecord 0 none 0) } : State).Faulted := by decide

theorem witness_LoadCopiesTheImage : (List.replicate 256 1#8 : List Byte).length ≤ 256 ∧ ([] : List Byte).length ≤ 256 :=
  ⟨List.length_replicate.le, Nat.zero_le _⟩

theorem witness_OversizeImageFailsTheLoad : 256 < (List.replicate 257 1#8 : List Byte).length := by
  rw [List.length_replicate]; decide

theorem witness_RunIsAdmittedOnce :
    Session.construct.engine.started = false ∧ Session.construct.phase ≠ .loadFailed := by decide

/-- Exactly the width, one byte short of it, the shortest width, and an unknown byte before a whole instruction. -/
theorem witness_LengthIsFixedByTheOpcodeByte :
    (resolve .default 0xA2#8 = some .mul ∧ Opcode.mul.width ≤ [0xA2#8, 0#8, 1#8].length ∧
      decode .default [0xA2#8, 0#8, 1#8] = .ok (.mul 0#8 1#8, [])) ∧
    ([0xA2#8, 0#8].length < Opcode.mul.width ∧
      decode .default [0xA2#8, 0#8] = .error (.missingOperand 0xA2#8 2)) ∧
    (resolve .default 0x01#8 = some .hlt ∧ decode .default [0x01#8, 0x46#8] = .ok (.hlt, [0x46#8])) ∧
    (resolve .default 0xFF#8 = none ∧ decode .default [0xFF#8, 0x01#8] = .error (.unknownOpcode 0xFF#8)) ∧
    ({ State.reset with pc := 255 }.unknown 0xFF#8).pc = 256 := by decide

end Sys2Proof.Tests
end

-- ==== Proofs: the host's inspection ====
section
/-! PROOFS. What the caller inspects (00_scope.md R11): the memory of an inspection against the model's own read; the other
fields of an inspection are the state's by definition. -/

namespace Sys2Proof.Machine

theorem Session.length_inspect_mem (e : Session) : e.inspect.mem.length = Config.memSize := by
  simp only [Session.inspect, List.length_map, List.length_range]

/-- The inspected memory holds at each index what a read at that address answers, and nothing from the end of memory on. -/
theorem Session.inspect_mem_getElem? (e : Session) (a : Nat) : e.inspect.mem[a]? = e.engine.mem.read a := by
  by_cases h : a < Config.memSize
  · rw [Memory.read_of_lt h]
    simp only [Session.inspect, List.getElem?_map, List.getElem?_range h, Option.map_some]
  · rw [Memory.read_of_ge h, List.getElem?_eq_none_iff, e.length_inspect_mem]
    exact Nat.le_of_not_lt h

/-- Settles O47: the length and the cells of the inspected memory by the two lemmas above, the other fields by definition. -/
theorem inspectionShowsTheState : Obligations.InspectionShowsTheState :=
  fun e => ⟨e.length_inspect_mem, e.inspect_mem_getElem?, rfl, rfl, rfl, rfl, rfl, rfl⟩

end Sys2Proof.Machine
end

-- ==== Proofs: memory as data ====
section
/-! PROOFS. Memory in canonical form is determined by its reads (10_state.md R33), and what the reads answer after an image
was written (10_state.md R34). -/

namespace Sys2Proof.Machine

/-- A cell that does not hold the reset content is listed. -/
theorem Memory.mem_of_cell_ne {m : Memory} {a : Nat} (h : m.cell a ≠ Memory.unlisted) : (a, m.cell a) ∈ m := by
  induction m with
  | nil => exact absurd rfl h
  | cons p m ih =>
    by_cases ha : a = p.1
    · simp [Memory.cell, ha]
    · simp only [Memory.cell, ha, if_false] at h ⊢
      exact List.mem_cons_of_mem _ (ih h)

/-- A listed cell holds the byte it is listed with, where no address is listed twice. -/
theorem Memory.cell_of_mem {m : Memory} (hm : m.Pairwise fun p q => p.1 < q.1) {p : Host.Cell} (h : p ∈ m) :
    m.cell p.1 = p.2 := by
  induction m with
  | nil => exact absurd h List.not_mem_nil
  | cons q m ih =>
    obtain ⟨hq, hm⟩ := List.pairwise_cons.mp hm
    rcases List.mem_cons.mp h with rfl | h
    · simp [Memory.cell]
    · have : p.1 ≠ q.1 := (hq p h).ne'
      simp [Memory.cell, this, ih hm h]

/-- The entries of a canonical memory, said by its reads alone. -/
theorem Memory.mem_iff_read {m : Memory} (hm : m.wf) (p : Host.Cell) :
    p ∈ m ↔ p.2 ≠ Memory.unlisted ∧ m.read p.1 = some p.2 := by
  obtain ⟨hsorted, hcells⟩ := hm
  constructor
  · intro h
    exact ⟨(hcells p h).1, by rw [Memory.read_of_lt (hcells p h).2, Memory.cell_of_mem hsorted h]⟩
  · rintro ⟨hne, hread⟩
    rw [Memory.read_of_lt (Memory.lt_of_read hread), Option.some.injEq] at hread
    have h := Memory.mem_of_cell_ne (hread ▸ hne)
    rwa [hread] at h

/-- Settles O28: both lists are strictly sorted by address, and they have the same entries since their reads agree. -/
theorem readsDetermineTheMemory : Obligations.ReadsDetermineTheMemory := by
  intro m m' hm hm' hread
  have irrefl : Std.Irrefl fun p q : Host.Cell => p.1 < q.1 := ⟨fun _ => lt_irrefl _⟩
  have antisymm : Std.Antisymm fun p q : Host.Cell => p.1 < q.1 := ⟨fun _ _ h h' => absurd h (lt_asymm h')⟩
  exact hm.1.eq_of_mem_iff hm'.1 fun p => by rw [Memory.mem_iff_read hm, Memory.mem_iff_read hm', hread]

/-- After an image that fits was written at `b`, an address below `b` reads as before, and one from `b` on reads the image's
byte, or as before where the image has none. -/
theorem Memory.read_writeBytes {m : Memory} (hm : m.wf) {b : Nat} {bs : List Byte} (h : b + bs.length ≤ Config.memSize)
    (a : Nat) : (m.writeBytes b bs).read a = if a < b then m.read a else bs[a - b]?.or (m.read a) := by
  induction bs generalizing m b with
  | nil => simp [Memory.writeBytes]
  | cons x bs ih =>
    rw [List.length_cons] at h
    have hb : b < Config.memSize := by omega
    have hput : m.writeBytes b (x :: bs) = (m.put b x).writeBytes (b + 1) bs := by
      simp only [Memory.writeBytes, Memory.write_of_lt hb, Option.getD_some]
    rw [hput, ih (Memory.put_wf hm hb x) (by omega), Memory.read_put hm hb]
    rcases lt_trichotomy a b with hab | rfl | hab
    · have : a < b + 1 := by omega
      simp [hab, this, hab.ne]
    · simp
    · obtain ⟨k, rfl⟩ := Nat.exists_eq_add_of_lt hab
      have hk : b + k + 1 - b = k + 1 := by omega
      have hk' : b + k + 1 - (b + 1) = k := by omega
      have hne : b + k + 1 ≠ b := by omega
      have hlt : ¬ b + k + 1 < b := by omega
      have hlt' : ¬ b + k + 1 < b + 1 := by omega
      simp only [hk, hk', hne, hlt, hlt', if_false, List.getElem?_cons_succ]

/-- The bytes a window of memory shows are cells of memory, in order. -/
theorem Memory.read_of_getElem?_readBytes {m : Memory} {n a k : Nat} {b : Byte} (h : (m.readBytes n a)[k]? = some b) :
    m.read (a + k) = some b := by
  induction n generalizing a k with
  | zero => simp [Memory.readBytes] at h
  | succ n ih =>
    cases hr : m.read a with
    | none => simp [readBytes_none hr] at h
    | some c =>
      rw [readBytes_cons hr] at h
      cases k with
      | zero => simpa [hr] using h
      | succ k => rw [← ih (by simpa using h), Nat.add_right_comm, Nat.add_assoc]

/-- A window of memory is cut short only by the end of memory. -/
theorem Memory.length_readBytes (m : Memory) (n a : Nat) : (m.readBytes n a).length = min n (Config.memSize - a) := by
  induction n generalizing a with
  | zero => simp [Memory.readBytes]
  | succ n ih =>
    by_cases ha : a < Config.memSize
    · rw [readBytes_cons (Memory.read_of_lt ha), List.length_cons, ih]
      omega
    · rw [readBytes_none (Memory.read_of_ge ha), List.length_nil]
      omega

end Sys2Proof.Machine
end

-- ==== Proofs: register access ====
section
/-! PROOFS. The checked access to the register file (10_state.md R21, R22). -/

namespace Sys2Proof.Machine

theorem withRegister_of_ge {r : Byte} (h : Config.nreg ≤ r.toNat) (s : State)
    (k : Fin Config.nreg → Host.Outcome State Fault Refusal) : withRegister r s k = .next (s.raiseRegister r) := by
  simp only [withRegister, registerIndex_of_ge h]

/-- Settles O25: the two outcomes of the register check, and the read-after-write law of the register file. -/
theorem registerAccessIsChecked : Obligations.RegisterAccessIsChecked := fun s _ k =>
  ⟨fun h => withRegister_of_ge h s k, fun _ h => withRegister_index h s k, fun _ => rfl,
    fun d b => ⟨rfl, fun e => s.reg_setReg d e b⟩⟩

end Sys2Proof.Machine
end

-- ==== Proofs: the decoder and the bytes at pc ====
section
/-! PROOFS. What the decoder's answer says about the bytes it was given (30_encoding.md R60, R61), and so about memory at
`pc`. -/

namespace Sys2Proof

theorem Opcode.width_pos (m : Opcode) : 0 < m.width := by cases m <;> decide

theorem Opcode.width_le (m : Opcode) : m.width ≤ maxWidth := by cases m <;> decide

theorem encode_eq_cons (v : OpcodeValue) (i : Instr) : encode v i = v.byte i.opcode :: i.operands := by
  cases i <;> rfl

theorem length_encode (v : OpcodeValue) (i : Instr) : (encode v i).length = i.opcode.width := by
  cases i <;> rfl

/-- Distinct mnemonics have distinct bytes (00_scope.md R10). -/
theorem OpcodeValue.Legal.byte_inj {v : OpcodeValue} (hv : v.Legal) {m m' : Opcode} : v.byte m = v.byte m' ↔ m = m' := by
  have hmem : ∀ m : Opcode, m ∈ [Opcode.hlt, .ldi, .prn, .mul, .push, .pop] := fun m => by cases m <;> decide
  have hd : ([Opcode.hlt, .ldi, .prn, .mul, .push, .pop].map v.byte).Nodup := hv.1
  exact ⟨fun h => List.inj_on_of_nodup_map hd (hmem m) (hmem m') h, congrArg _⟩

/-- A byte that resolves is that mnemonic's byte (40_execution_loop.md R85). -/
theorem eq_byte_of_resolve {v : OpcodeValue} {opc : Byte} {m : Opcode} (h : resolve v opc = some m) : opc = v.byte m := by
  have hmem : (opc, m) ∈ dispatchTable v := by
    obtain ⟨l₁, l₂, hl, -⟩ := List.lookup_eq_some_iff.mp h
    simp [hl]
  cases m <;> simpa [dispatchTable, OpcodeValue.byte] using hmem

/-- A byte that does not resolve is no mnemonic's byte. -/
theorem ne_byte_of_resolve_none {v : OpcodeValue} {opc : Byte} (h : resolve v opc = none) (m : Opcode) : opc ≠ v.byte m := by
  have hmem : (v.byte m, m) ∈ dispatchTable v := by cases m <;> simp [dispatchTable, OpcodeValue.byte]
  simpa using List.lookup_eq_none_iff.mp h _ hmem

theorem takeOne_ok {opc : Byte} {mk : Byte → Instr} {bytes rest : List Byte} {i : Instr}
    (h : takeOne opc mk bytes = .ok (i, rest)) : ∃ r, i = mk r ∧ bytes = r :: rest := by
  match bytes with
  | [] => cases h
  | r :: _ => cases h; exact ⟨r, rfl, rfl⟩

theorem takeTwo_ok {opc : Byte} {mk : Byte → Byte → Instr} {bytes rest : List Byte} {i : Instr}
    (h : takeTwo opc mk bytes = .ok (i, rest)) : ∃ a b, i = mk a b ∧ bytes = a :: b :: rest := by
  match bytes with
  | [] => cases h
  | [_] => cases h
  | a :: b :: _ => cases h; exact ⟨a, b, rfl, rfl⟩

theorem takeOne_error {opc : Byte} {mk : Byte → Instr} {bytes : List Byte} {e : DecodeError}
    (h : takeOne opc mk bytes = .error e) : bytes.length + 1 < 2 ∧ e = .missingOperand opc (bytes.length + 1) := by
  match bytes with
  | [] => cases h; exact ⟨by decide, rfl⟩
  | _ :: _ => cases h

theorem takeTwo_error {opc : Byte} {mk : Byte → Byte → Instr} {bytes : List Byte} {e : DecodeError}
    (h : takeTwo opc mk bytes = .error e) : bytes.length + 1 < 3 ∧ e = .missingOperand opc (bytes.length + 1) := by
  match bytes with
  | [] => cases h; exact ⟨by decide, rfl⟩
  | [_] => cases h; exact ⟨by simp, rfl⟩
  | _ :: _ :: _ => cases h

/-- Operands that were taken are the instruction's, and the mnemonic is the one asked for. -/
theorem takeOperands_ok {m : Opcode} {opc : Byte} {bytes rest : List Byte} {i : Instr}
    (h : takeOperands m opc bytes = .ok (i, rest)) : i.opcode = m ∧ bytes = i.operands ++ rest := by
  cases m with
  | hlt => cases h; exact ⟨rfl, rfl⟩
  | ldi | mul => obtain ⟨a, b, rfl, rfl⟩ := takeTwo_ok h; exact ⟨rfl, rfl⟩
  | prn | push | pop => obtain ⟨r, rfl, rfl⟩ := takeOne_ok h; exact ⟨rfl, rfl⟩

/-- Operands are refused only where too few bytes follow, and the missing one is the next. -/
theorem takeOperands_error {m : Opcode} {opc : Byte} {bytes : List Byte} {e : DecodeError}
    (h : takeOperands m opc bytes = .error e) :
    bytes.length + 1 < m.width ∧ e = .missingOperand opc (bytes.length + 1) := by
  cases m with
  | hlt => cases h
  | ldi | mul => exact takeTwo_error h
  | prn | push | pop => exact takeOne_error h

/-- Bytes that decode are the encoding of what they decode to, and then the rest. -/
theorem eq_encode_of_decode {v : OpcodeValue} {bytes rest : List Byte} {i : Instr} (h : decode v bytes = .ok (i, rest)) :
    bytes = encode v i ++ rest := by
  cases bytes with
  | nil => simp [decode] at h
  | cons opc bytes =>
    cases hm : resolve v opc with
    | none => simp [decode, hm] at h
    | some m =>
      obtain ⟨rfl, rfl⟩ := takeOperands_ok (by simpa [decode, hm] using h)
      rw [encode_eq_cons, List.cons_append, eq_byte_of_resolve hm]

end Sys2Proof
end

-- ==== Proofs: what one step can do ====
section
/-! PROOFS. One step, taken apart once: the fatal conditions it can raise, the unknown opcode, and the completing
instructions (40_execution_loop.md R81 to R86). Every rule about all steps below is a case analysis of `StepResult`. -/

namespace Sys2Proof.Machine

/-- Bytes that lie at an address, read one at a time. -/
theorem State.read_of_bytesAt {s : State} {a k : Nat} {bs : List Byte} {b : Byte} (h : s.BytesAt a bs)
    (hk : bs[k]? = some b) : s.mem.read (a + k) = some b := by
  obtain ⟨hlt, rfl⟩ := List.getElem?_eq_some_iff.mp hk
  exact h ⟨k, hlt⟩

/-- The opcode byte of an instruction that lies at `pc`. -/
theorem State.read_pc_of_bytesAt {s : State} {v : OpcodeValue} {i : Instr} (h : s.BytesAt s.pc (encode v i)) :
    s.mem.read s.pc = some (v.byte i.opcode) :=
  State.read_of_bytesAt (k := 0) h (by simp [encode_eq_cons])

/-- The opcode byte at `pc` names the instruction that lies there, each mnemonic having a byte of its own. -/
theorem opcode_eq_of_bytesAt {s : State} {v : OpcodeValue} {i : Instr} {m : Opcode} (hv : v.Legal)
    (h : s.BytesAt s.pc (encode v i)) (hm : s.mem.read s.pc = some (v.byte m)) : i.opcode = m :=
  hv.byte_inj.mp (Option.some.inj ((State.read_pc_of_bytesAt h).symm.trans hm))

/-- The operand bytes of an instruction that lies at `pc` follow its opcode byte (30_encoding.md R61). -/
theorem State.read_operand_of_bytesAt {s : State} {v : OpcodeValue} {i : Instr} {k : Nat} {b : Byte}
    (h : s.BytesAt s.pc (encode v i)) (hk : i.operands[k]? = some b) : s.mem.read (s.pc + (k + 1)) = some b :=
  State.read_of_bytesAt h (by simpa [encode_eq_cons] using hk)

/-- An instruction that lies at `pc` ends inside memory. -/
theorem State.fits_of_bytesAt {s : State} {v : OpcodeValue} {i : Instr} (h : s.BytesAt s.pc (encode v i)) :
    s.pc + i.opcode.width ≤ Config.memSize := by
  have hw := i.opcode.width_pos
  have hlt : i.opcode.width - 1 < (encode v i).length := by rw [length_encode]; omega
  have := Memory.lt_of_read (h ⟨_, hlt⟩)
  simp only at this
  omega

/-- An instruction decoded from the fetched bytes lies at `pc`. -/
theorem State.bytesAt_of_decode {s : State} {v : OpcodeValue} {i : Instr} {rest : List Byte}
    (h : decode v s.fetchBytes = .ok (i, rest)) : s.BytesAt s.pc (encode v i) := fun k => by
  refine Memory.read_of_getElem?_readBytes (n := maxWidth) ?_
  change s.fetchBytes[(k : Nat)]? = _
  rw [eq_encode_of_decode h, List.getElem?_append_left k.isLt]
  exact List.getElem?_eq_getElem k.isLt

theorem withOperandBytes_of_le {w : Nat} {s : State} {k : Host.Outcome State Fault Refusal} (hw : 0 < w)
    (h : s.pc + w ≤ Config.memSize) : withOperandBytes w s k = k :=
  withOperandBytes_fits (by omega) (by omega)

/-- The index `r` that the checks of `i` find out of range: its first operand, or MUL's second where the first is in range
(40_execution_loop.md R86). -/
def FindsBadRegister (i : Instr) (r : Byte) : Prop :=
  Config.nreg ≤ r.toNat ∧ (i.operands[0]? = some r ∨ ∃ a, i = .mul a r ∧ a.toNat < Config.nreg)

/-- The state in which an instruction completes, its register operands in range (41_basic.md R100 to R102, 42_alu.md R112,
43_stack.md R120, R121). -/
inductive CompletesIn (s : State) : Instr → State → Prop
  | hlt : CompletesIn s .hlt (s.stopRunning.advance 1)
  | ldi {r b : Byte} {d : Fin Config.nreg} (hd : r.toNat = d) : CompletesIn s (.ldi r b) ((s.setReg d b).advance 3)
  | prn {r : Byte} {d : Fin Config.nreg} (hd : r.toNat = d) : CompletesIn s (.prn r) ((s.emitOut (s.reg d)).advance 2)
  | mul {a b : Byte} {d e : Fin Config.nreg} (hd : a.toNat = d) (he : b.toNat = e) :
      CompletesIn s (.mul a b) ((s.setReg d (product (s.reg d) (s.reg e))).advance 3)
  | push {r : Byte} {d : Fin Config.nreg} (hd : r.toNat = d) :
      CompletesIn s (.push r) (((s.setReg Config.spIndex (pushAddress s)).setMem
        (s.mem.put (pushAddress s).toNat ((s.setReg Config.spIndex (pushAddress s)).reg d))).advance 2)
  | pop {r : Byte} {d : Fin Config.nreg} (hd : r.toNat = d) :
      CompletesIn s (.pop r) (((s.setReg d (s.mem.cell s.sp.toNat)).setReg Config.spIndex
        ((s.setReg d (s.mem.cell s.sp.toNat)).sp + 1#8)).advance 2)

/-- A handler that checks one register operand and then completes. -/
theorem exec_of_withRegister {i : Instr} {s : State} {r : Byte} {f : Fin Config.nreg → State}
    (hexec : exec i s = withRegister r s fun d => .next (f d)) (hr : i.operands[0]? = some r)
    (hf : ∀ d : Fin Config.nreg, r.toNat = d → CompletesIn s i (f d)) :
    (∃ r, FindsBadRegister i r ∧ exec i s = .next (s.raiseRegister r)) ∨ ∃ t, CompletesIn s i t ∧ exec i s = .next t := by
  rw [hexec]
  rcases withRegister_cases r s fun d => .next (f d) with ⟨hbad, h⟩ | ⟨d, hd, h⟩
  · exact .inl ⟨r, ⟨hbad, .inl hr⟩, h⟩
  · exact .inr ⟨f d, hf d hd, h⟩

/-- An instruction whose bytes lie in memory raises on a register index or completes. -/
theorem exec_of_fits {i : Instr} {s : State} (h : s.pc + i.opcode.width ≤ Config.memSize) :
    (∃ r, FindsBadRegister i r ∧ exec i s = .next (s.raiseRegister r)) ∨ ∃ t, CompletesIn s i t ∧ exec i s = .next t := by
  have fits (k) : withOperandBytes i.opcode.width s k = k := withOperandBytes_of_le i.opcode.width_pos h
  cases i with
  | hlt => exact .inr ⟨_, .hlt, rfl⟩
  | ldi r b => exact exec_of_withRegister (fits _) rfl fun _ => .ldi
  | prn r => exact exec_of_withRegister (fits _) rfl fun _ => .prn
  | mul a b =>
    have hexec : exec (.mul a b) s = withRegister a s fun d => withRegister b s fun e =>
      .next ((s.setReg d (product (s.reg d) (s.reg e))).advance 3) := fits _
    rw [hexec]
    rcases withRegister_cases a s _ with ⟨hbad, ha⟩ | ⟨d, hd, ha⟩
    · exact .inl ⟨a, ⟨hbad, .inl rfl⟩, ha⟩
    rw [ha]
    rcases withRegister_cases b s _ with ⟨hbad, hb⟩ | ⟨e, he, hb⟩
    · exact .inl ⟨b, ⟨hbad, .inr ⟨a, rfl, hd ▸ d.isLt⟩⟩, hb⟩
    · exact .inr ⟨_, .mul hd he, hb⟩
  | push r =>
    refine exec_of_withRegister ((fits _).trans ?_) rfl fun _ => .push
    simp only [memWrite_byte, State.sp_eq, State.reg_setReg_same]
  | pop r =>
    refine exec_of_withRegister ((fits _).trans ?_) rfl fun _ => .pop
    simp only [memRead_byte]

/-- The records a step can raise: the fetch outside memory, an operand byte at 256, a register index of 8 or more
(40_execution_loop.md R82, R83, R86). -/
inductive RaisesRecord (v : OpcodeValue) (s : State) : Event → Prop
  | fetch (hpc : Config.memSize ≤ s.pc) : RaisesRecord v s (addressRecord s.pc (s.mem.read s.pc) s.pc)
  | operand {m : Opcode} (hread : s.mem.read s.pc = some (v.byte m)) (hover : Config.memSize < s.pc + m.width) :
      RaisesRecord v s (addressRecord s.pc (s.mem.read s.pc) Config.memSize)
  | register {i : Instr} {r : Byte} (hbytes : s.BytesAt s.pc (encode v i)) (hr : FindsBadRegister i r) :
      RaisesRecord v s (registerRecord s.pc (s.mem.read s.pc) r)

/-- What a step can lead to. -/
inductive StepResult (v : OpcodeValue) (s : State) : State → Prop
  | raised {e : Event} (he : RaisesRecord v s e) : StepResult v s (s.stoppedBy e)
  | unknown {opc : Byte} (hread : s.mem.read s.pc = some opc) (hne : ∀ m : Opcode, opc ≠ v.byte m) :
      StepResult v s (s.unknown opc)
  | completed {i : Instr} {t : State} (hbytes : s.BytesAt s.pc (encode v i)) (hi : CompletesIn s i t) : StepResult v s t

/-- Where no whole instruction lies at `pc`: the fetch fails, the opcode is unknown, or an operand byte would lie at 256. -/
theorem stepResult_of_undecoded {v : OpcodeValue} {s : State} {e : DecodeError} (h : decode v s.fetchBytes = .error e) :
    StepResult v s (s.undecoded e) := by
  cases hread : s.mem.read s.pc with
  | none =>
    obtain rfl : e = .noOpcode := by simpa [fetchBytes_of_none hread, decode, eq_comm] using h
    refine .raised (.fetch (Nat.le_of_not_lt fun hlt => ?_))
    rw [Memory.read_of_lt hlt] at hread
    cases hread
  | some opc =>
    rw [fetchBytes_of_read hread] at h
    cases hm : resolve v opc with
    | none =>
      obtain rfl : e = .unknownOpcode opc := by simpa [decode, hm, eq_comm] using h
      exact .unknown hread (ne_byte_of_resolve_none hm)
    | some m =>
      obtain ⟨hshort, rfl⟩ := takeOperands_error (m := m) (by simpa [decode, hm] using h)
      have hw : m.width ≤ 3 := m.width_le
      have hpc : s.pc < Config.memSize := Memory.lt_of_read hread
      have hend : s.pc + ((s.mem.readBytes 2 (s.pc + 1)).length + 1) = Config.memSize := by
        rw [Memory.length_readBytes] at hshort ⊢
        omega
      change StepResult v s (s.raiseAddress (s.pc + _))
      rw [hend]
      exact .raised (.operand (hread.trans (congrArg _ (eq_byte_of_resolve hm))) (by omega))

/-- The inversion of a step: it was enabled, and it led to one of the results above. -/
theorem stepResult_of_step {v : OpcodeValue} {s t : State} (h : stepWith v s = .next t) :
    s.Enabled ∧ StepResult v s t := by
  obtain ⟨hs, ⟨e, hd, rfl⟩ | ⟨i, rest, hd, hexec⟩⟩ := stepWith_cases h
  · exact ⟨hs, stepResult_of_undecoded hd⟩
  have hbytes := State.bytesAt_of_decode hd
  refine ⟨hs, ?_⟩
  rcases exec_of_fits (State.fits_of_bytesAt hbytes) with ⟨r, hr, h'⟩ | ⟨u, hu, h'⟩
  · cases hexec.symm.trans h'
    exact .raised (.register hbytes hr)
  · cases hexec.symm.trans h'
    exact .completed hbytes hu

end Sys2Proof.Machine
end

-- ==== Proofs: rules about every step ====
section
/-! PROOFS. What a completing instruction and a fatal condition change and leave (10_state.md R24 to R31), and the rules about
every step that follow by the cases of `StepResult`. -/

namespace Sys2Proof.Machine

section StoppedBy
variable (s : State) (e : Event)

@[simp] theorem State.stoppedBy_mem : (s.stoppedBy e).mem = s.mem := rfl
@[simp] theorem State.stoppedBy_x : (s.stoppedBy e).x = s.x := rfl
@[simp] theorem State.stoppedBy_pc : (s.stoppedBy e).pc = s.pc := rfl
@[simp] theorem State.stoppedBy_running : (s.stoppedBy e).running = s.running := rfl
@[simp] theorem State.stoppedBy_fault : (s.stoppedBy e).fault = some e := rfl
@[simp] theorem State.stoppedBy_out : (s.stoppedBy e).out = s.out := rfl
@[simp] theorem State.stoppedBy_diag : (s.stoppedBy e).diag = s.diag ++ [e] := rfl
@[simp] theorem State.stoppedBy_started : (s.stoppedBy e).started = s.started := rfl

end StoppedBy

section Completes
variable {i : Instr} {s t : State}

theorem CompletesIn.pc_eq (h : CompletesIn s i t) : t.pc = s.pc + i.opcode.width := by cases h <;> rfl

theorem CompletesIn.fault_eq (h : CompletesIn s i t) : t.fault = s.fault := by cases h <;> rfl

theorem CompletesIn.diag_eq (h : CompletesIn s i t) : t.diag = s.diag := by cases h <;> rfl

theorem CompletesIn.started_eq (h : CompletesIn s i t) : t.started = s.started := by cases h <;> rfl

/-- HLT alone clears `running` (41_basic.md R100). -/
theorem CompletesIn.running_eq (h : CompletesIn s i t) : t.running = (s.running && decide (i.opcode ≠ .hlt)) := by
  cases h <;> simp [Instr.opcode]

/-- PRN alone writes the output trace (41_basic.md R102). -/
theorem CompletesIn.out_eq (h : CompletesIn s i t) (hi : i.opcode ≠ .prn) : t.out = s.out := by
  cases h with
  | prn => exact absurd rfl hi
  | _ => rfl

/-- Memory stays canonical: PUSH alone writes it, at an address a byte holds (43_stack.md R120, 20_memory.md R55). -/
theorem CompletesIn.mem_wf (h : CompletesIn s i t) (hs : s.mem.wf) : t.mem.wf := by
  cases h with
  | push => exact Memory.put_wf hs (byte_lt_memSize _) _
  | _ => exact hs

end Completes

theorem FindsBadRegister.not_wellFormed {i : Instr} {r : Byte} (h : FindsBadRegister i r) : i.wellFormed = false := by
  obtain ⟨hr, hop | ⟨a, rfl, -⟩⟩ := h
  · cases i with
    | hlt => cases hop
    | _ =>
      obtain rfl := Option.some.inj hop
      simp [Instr.wellFormed, registerOperandOk, hr]
  · simp [Instr.wellFormed, registerOperandOk, hr]

theorem FindsBadRegister.opcode_ne_hlt {i : Instr} {r : Byte} (h : FindsBadRegister i r) : i.opcode ≠ .hlt := by
  obtain ⟨-, hop | ⟨a, rfl, -⟩⟩ := h
  · cases i with
    | hlt => cases hop
    | _ => nofun
  · nofun

/-- Settles O22: a well-formed instruction has no bad register, so it completes. -/
theorem wellFormedInstructionCompletes : Obligations.WellFormedInstructionCompletes := by
  intro i s hwf hfits
  rcases exec_of_fits hfits with ⟨r, hr, -⟩ | ⟨t, ht, hexec⟩
  · simp [hr.not_wellFormed] at hwf
  · exact ⟨t, hexec, ht.pc_eq, ht.fault_eq, ht.diag_eq⟩

/-- Every record carries a fatal kind and the `pc` and opcode byte of the step (10_state.md R31). -/
theorem RaisesRecord.agrees {v : OpcodeValue} {s : State} {e : Event} (h : RaisesRecord v s e) :
    e.kind.fatal = true ∧ e.pc = s.pc ∧ e.opcode = s.mem.read s.pc := by
  cases h <;> exact ⟨rfl, rfl, rfl⟩

/-- No record is raised where the HLT byte was fetched: HLT has no operand byte (41_basic.md R100). -/
theorem RaisesRecord.read_ne_hlt {v : OpcodeValue} {s : State} {e : Event} (hv : v.Legal) (h : RaisesRecord v s e) :
    s.mem.read s.pc ≠ some v.hlt := by
  intro hhlt
  have hpc : s.pc < Config.memSize := Memory.lt_of_read hhlt
  cases h with
  | fetch hend => exact Nat.not_lt.mpr hend hpc
  | operand hread hover =>
    obtain rfl := hv.byte_inj (m' := .hlt).mp (Option.some.inj (hread.symm.trans hhlt))
    exact Nat.not_lt.mpr hpc hover
  | register hbytes hr =>
    exact hr.opcode_ne_hlt (opcode_eq_of_bytesAt (m := .hlt) hv hbytes hhlt)

/-- A fatal condition of an enabled step keeps the invariant (60_exceptions.md R136). -/
theorem State.Inv.stoppedBy {v : OpcodeValue} {s : State} {e : Event} (hs : s.Inv) (hen : s.Enabled)
    (he : RaisesRecord v s e) : (s.stoppedBy e).Inv where
  memory := hs.memory
  pcBound := hs.pcBound
  begun := hs.begun
  faulted e' h := by
    obtain rfl : e = e' := Option.some.inj h
    obtain ⟨hkind, hpc, hopc⟩ := he.agrees
    exact ⟨hen.1, hkind, hpc, hopc, by simp⟩
  soft h := nomatch h
  before _ := by simpa using hs.soft hen.2

/-- Skipping an unknown opcode keeps the invariant (40_execution_loop.md R84). -/
theorem State.Inv.unknown {s : State} {opc : Byte} (hs : s.Inv) (hen : s.Enabled) (hread : s.mem.read s.pc = some opc) :
    (s.unknown opc).Inv where
  memory := hs.memory
  pcBound := Memory.lt_of_read hread
  begun := hs.begun
  faulted _ he := nomatch hen.2.symm.trans he
  soft h e he := by
    rcases List.mem_append.mp he with he | he
    · exact hs.soft h e he
    · rw [List.mem_singleton.mp he]
  before h := absurd hen.2 h

/-- A completing instruction keeps the invariant. -/
theorem State.Inv.completed {i : Instr} {s t : State} (hs : s.Inv) (hen : s.Enabled)
    (hfits : s.pc + i.opcode.width ≤ Config.memSize) (h : CompletesIn s i t) : t.Inv where
  memory := h.mem_wf hs.memory
  pcBound := h.pc_eq ▸ hfits
  begun _ := h.started_eq.trans (hs.begun hen.1)
  faulted _ he := nomatch (h.fault_eq.trans hen.2).symm.trans he
  soft _ := h.diag_eq ▸ hs.soft hen.2
  before hf := absurd (h.fault_eq.trans hen.2) hf

theorem State.Inv.step {v : OpcodeValue} {s t : State} (hs : s.Inv) (h : stepWith v s = .next t) : t.Inv := by
  obtain ⟨hen, hr⟩ := stepResult_of_step h
  cases hr with
  | raised he => exact hs.stoppedBy hen he
  | unknown hread => exact hs.unknown hen hread
  | completed hbytes hi => exact hs.completed hen (State.fits_of_bytesAt hbytes) hi

/-- Settles O7: `step` is `stepWith` at the default map, and the invariant is kept by each result of a step. -/
theorem everyStepKeepsTheInvariant : Obligations.EveryStepKeepsTheInvariant := fun _ _ _ hs h => h.elim hs.step hs.step

/-- Settles O32: by the results of a step, a legal map giving each mnemonic a byte of its own. -/
theorem pcAdvancesByTheWidth : Obligations.PcAdvancesByTheWidth := by
  refine ⟨rfl, fun v s t hv h => ?_⟩
  obtain ⟨⟨-, hfault⟩, hr⟩ := stepResult_of_step h
  cases hr with
  | raised he => exact ⟨fun _ => rfl, fun h => nomatch h⟩
  | unknown hread hne =>
    refine ⟨fun hf => absurd hfault hf, fun _ => ⟨fun m hm => ?_, fun _ => rfl⟩⟩
    exact absurd (Option.some.inj (hread.symm.trans hm)) (hne m)
  | completed hbytes hi =>
    refine ⟨fun hf => absurd (hi.fault_eq.trans hfault) hf, fun _ => ⟨fun m hm => ?_, fun hne => ?_⟩⟩
    case refine_2 => exact absurd (State.read_pc_of_bytesAt hbytes) (hne _)
    obtain rfl := opcode_eq_of_bytesAt hv hbytes hm
    exact hi.pc_eq

/-- Settles O33: by the results of a step; HLT raises nothing, and of the completing instructions it alone clears the flag. -/
theorem onlyHltClearsRunning : Obligations.OnlyHltClearsRunning := by
  intro v s t hv h
  obtain ⟨⟨hrun, -⟩, hr⟩ := stepResult_of_step h
  cases hr with
  | raised he => simp [hrun, he.read_ne_hlt hv]
  | @unknown opc hread hne =>
    have : opc ≠ v.hlt := hne .hlt
    simp [hrun, hread, this]
  | @completed i _ hbytes hi =>
    have hbyte : v.byte i.opcode = v.hlt ↔ i.opcode = .hlt := hv.byte_inj (m' := .hlt)
    simp [hi.running_eq, hrun, State.read_pc_of_bytesAt hbytes, hbyte]

/-- Settles O34: by the results of a step; of the completing instructions PRN alone appends, and its operand byte is the index
of the register it names. -/
theorem onlyPrnWritesTheOutput : Obligations.OnlyPrnWritesTheOutput := by
  refine ⟨rfl, fun v s t hv h => ?_⟩
  obtain ⟨⟨-, hfault⟩, hr⟩ := stepResult_of_step h
  cases hr with
  | raised he => exact .inr ⟨.inr nofun, rfl⟩
  | unknown hread hne =>
    exact .inr ⟨.inl fun hprn => hne .prn (Option.some.inj (hread.symm.trans hprn)), rfl⟩
  | @completed i _ hbytes hi =>
    by_cases hprn : i.opcode = .prn
    · cases hi with
      | @prn r d hd =>
        have hr : BitVec.ofNat 8 d = r := by rw [← hd, BitVec.ofNat_toNat, BitVec.setWidth_eq]
        exact .inl ⟨State.read_pc_of_bytesAt hbytes, hfault, d, hr ▸ State.read_operand_of_bytesAt (k := 0) hbytes rfl, rfl⟩
      | _ => cases hprn
    · exact .inr ⟨.inl fun hm => hprn (opcode_eq_of_bytesAt hv hbytes hm), hi.out_eq hprn⟩

/-- Settles O36: of the results of a step only the raising ones set a record, and each record is given with the bytes that
raise it. -/
theorem fatalConditionIsPrecise : Obligations.FatalConditionIsPrecise := by
  intro v s t e h he
  obtain ⟨⟨-, hfault⟩, hr⟩ := stepResult_of_step h
  cases hr with
  | unknown => exact nomatch hfault.symm.trans he
  | completed _ hi => exact nomatch (hi.fault_eq.trans hfault).symm.trans he
  | raised hrec =>
    obtain rfl := Option.some.inj he
    obtain ⟨-, hpc, hopc⟩ := hrec.agrees
    refine ⟨rfl, hpc, hopc, ?_⟩
    cases hrec with
    | fetch hend => exact .inl ⟨hend, rfl, rfl, rfl⟩
    | operand hread hover => exact .inr (.inl ⟨Memory.lt_of_read hread, ⟨_, hread, hover⟩, rfl, rfl, rfl⟩)
    | @register i r hbytes hr =>
      refine .inr (.inr ⟨rfl, rfl, r, rfl, hr.1, ?_⟩)
      rcases hr.2 with hfirst | ⟨a, rfl, ha⟩
      · exact .inl (State.read_operand_of_bytesAt hbytes hfirst)
      · exact .inr ⟨State.read_pc_of_bytesAt hbytes, State.read_operand_of_bytesAt (k := 1) hbytes rfl, a,
          State.read_operand_of_bytesAt (k := 0) hbytes rfl, ha⟩

end Sys2Proof.Machine
end

-- ==== Proofs: whole runs ====
section
/-! PROOFS. A run as steps in a row, and what grows along it (10_state.md R25, R29, R30). -/

namespace Sys2Proof.Machine

/-- What holds of the states before and after any number of steps. -/
structure State.GrowsTo (s t : State) : Prop where
  out     : s.out <+: t.out
  diag    : s.diag <+: t.diag
  started : t.started = s.started
  pc      : s.pc ≤ t.pc

theorem State.GrowsTo.refl (s : State) : s.GrowsTo s := ⟨List.prefix_rfl, List.prefix_rfl, rfl, Nat.le_refl _⟩

theorem State.GrowsTo.trans {s t u : State} (h : s.GrowsTo t) (h' : t.GrowsTo u) : s.GrowsTo u :=
  ⟨h.out.trans h'.out, h.diag.trans h'.diag, h'.started.trans h.started, h.pc.trans h'.pc⟩

theorem CompletesIn.out_isPrefix {i : Instr} {s t : State} (h : CompletesIn s i t) : s.out <+: t.out := by
  cases h with
  | prn => exact List.prefix_append _ _
  | _ => exact List.prefix_rfl

/-- Each result of a step only adds to the traces and to `pc`. -/
theorem growsTo_of_step {v : OpcodeValue} {s t : State} (h : stepWith v s = .next t) : s.GrowsTo t := by
  obtain ⟨-, hr⟩ := stepResult_of_step h
  cases hr with
  | raised => exact ⟨List.prefix_rfl, List.prefix_append _ _, rfl, Nat.le_refl _⟩
  | unknown => exact ⟨List.prefix_rfl, List.prefix_append _ _, rfl, Nat.le_succ _⟩
  | completed _ hi =>
    exact ⟨hi.out_isPrefix, hi.diag_eq ▸ List.prefix_rfl, hi.started_eq, hi.pc_eq ▸ Nat.le_add_right _ _⟩

/-- A run is a row of steps: a reflexive and transitive relation that every step respects holds of its two ends. -/
theorem runLoop_of_steps {v : OpcodeValue} {R : State → State → Prop} (refl : ∀ s, R s s)
    (trans : ∀ {s t u}, R s t → R t u → R s u) (of_step : ∀ {s t}, stepWith v s = .next t → R s t) (n : Nat) (s : State) :
    R s (runLoop v n s) := by
  induction n generalizing s with
  | zero => exact refl s
  | succ n ih =>
    unfold runLoop
    split
    · next t h => exact trans (of_step h) (ih t)
    · exact refl s
    · exact refl s

/-- A run from a state with no step stays there. -/
theorem runLoop_of_stuck {v : OpcodeValue} {s : State} {f : Fault} (h : s.stuck = some f) (n : Nat) : runLoop v n s = s := by
  cases n with
  | zero => rfl
  | succ n => simp only [runLoop, stepWith, h]

theorem State.Faulted.stuck_eq {s : State} (h : s.Faulted) : s.stuck = some .faulted := by
  simp only [State.stuck, Option.isSome_iff_ne_none.mpr h, if_true]

/-- Settles O43: growth holds of each step, is reflexive and transitive, and a faulted state has no step. -/
theorem tracesOnlyGrowAlongARun : Obligations.TracesOnlyGrowAlongARun := by
  intro v n s
  obtain ⟨hout, hdiag, hstarted, hpc⟩ := runLoop_of_steps State.GrowsTo.refl State.GrowsTo.trans growsTo_of_step (v := v) n s
  exact ⟨hout, hdiag, hstarted, hpc, fun hf => runLoop_of_stuck (State.Faulted.stuck_eq hf) n⟩

end Sys2Proof.Machine
end

-- ==== Proofs: loading an image ====
section
/-! PROOFS. The one load a constructed engine admits (10_state.md R34, the spec's decision D10). -/

namespace Sys2Proof.Machine

/-- A started engine with the reset values but for its memory meets the invariant. -/
theorem State.start_reset_setMem_inv {m : Memory} (hm : m.wf) : (State.reset.setMem m).start.Inv :=
  ⟨hm, Nat.zero_le _, fun _ => rfl, nofun, fun _ => nofun, fun h => absurd rfl h⟩

theorem Session.load_construct {image : List Byte} (h : image.length ≤ Config.maxProgram) :
    Session.construct.load image =
      .ok (⟨State.reset.setMem (Memory.writeBytes [] Config.loadBase image), .loaded⟩, .success) := by
  have : ¬ Config.maxProgram < image.length := Nat.not_lt.mpr h
  simp [Session.load, Session.construct, State.reset, this]

/-- A load is admitted once, whether it succeeded or failed. -/
theorem Session.load_of_phase_ne {e : Session} (hs : e.engine.started = false) (hp : e.phase ≠ .unloaded)
    (image : List Byte) : e.load image = .error .secondLoad := by
  simp [Session.load, hs, hp]

/-- Settles O44: the memory after the load is the image written at 0 over the empty memory. -/
theorem loadCopiesTheImage : Obligations.LoadCopiesTheImage := by
  intro image h
  refine ⟨_, Session.load_construct h, fun a ha => ?_, rfl, Session.load_of_phase_ne rfl nofun,
    State.start_reset_setMem_inv (Memory.writeBytes_wf Memory.reset_wf _ _)⟩
  have hread := Memory.read_writeBytes (b := Config.loadBase) Memory.reset_wf ((Nat.zero_add _).trans_le h) a
  refine hread.trans ?_
  have hzero : State.reset.mem.read a = some 0#8 := Memory.read_of_lt ha
  rw [hzero, if_neg (Nat.not_lt_zero a), Nat.sub_zero, List.getD_eq_getElem?_getD]
  cases image[a]? <;> rfl

end Sys2Proof.Machine
end

-- ==== Proofs: memory access ====
section
/-! PROOFS. The checked access to memory (20_memory.md R40, R41), and which step writes it (R43, R52). -/

namespace Sys2Proof.Machine

section Access
variable {s : State} {a : Nat}

theorem memRead_of_lt (h : a < Config.memSize) (k : Byte → Host.Outcome State Fault Refusal) :
    memRead s a k = k (s.mem.cell a) := by
  simp only [memRead, Memory.read_of_lt h]

theorem memRead_of_ge (h : ¬ a < Config.memSize) (k : Byte → Host.Outcome State Fault Refusal) :
    memRead s a k = .next (s.raiseAddress a) := by
  simp only [memRead, Memory.read_of_ge h]

theorem memWrite_of_lt (h : a < Config.memSize) (b : Byte) (k : Memory → Host.Outcome State Fault Refusal) :
    memWrite s a b k = k (s.mem.put a b) := by
  simp only [memWrite, Memory.write_of_lt h]

theorem memWrite_of_ge (h : ¬ a < Config.memSize) (b : Byte) (k : Memory → Host.Outcome State Fault Refusal) :
    memWrite s a b k = .next (s.raiseAddress a) := by
  simp only [memWrite, Memory.write_of_ge h]

end Access

/-- Settles O26: the two outcomes of the address check of a read. -/
theorem memoryReadIsChecked : Obligations.MemoryReadIsChecked := fun s a k =>
  ⟨fun h => ⟨s.mem.cell a, Memory.read_of_lt h, memRead_of_lt h k⟩,
    fun h => ⟨Memory.read_of_ge h.not_gt, memRead_of_ge h.not_gt k⟩⟩

/-- Settles O27: the two outcomes of the address check of a write, and the read-after-write law of a canonical memory. -/
theorem memoryWriteIsCheckedAndSetsOneCell : Obligations.MemoryWriteIsCheckedAndSetsOneCell := by
  refine fun s a b k hs => ⟨fun h => ⟨s.mem.put a b, memWrite_of_lt h b k, Memory.put_wf hs h b, ?_, fun c hc => ?_⟩,
    fun h => memWrite_of_ge h.not_gt b k⟩
  · rw [Memory.read_put hs h, if_pos rfl]
  · rw [Memory.read_put hs h, if_neg hc]

section Completes
variable {i : Instr} {s t : State}

/-- PUSH alone writes memory (43_stack.md R120). -/
theorem CompletesIn.mem_eq (h : CompletesIn s i t) (hi : i.opcode ≠ .push) : t.mem = s.mem := by
  cases h with
  | push => exact absurd rfl hi
  | _ => rfl

/-- A completing instruction leaves every cell but the one a PUSH stores to. -/
theorem CompletesIn.read_mem (h : CompletesIn s i t) (hs : s.mem.wf) {a : Nat} (ha : a ≠ (pushAddress s).toNat) :
    t.mem.read a = s.mem.read a := by
  by_cases hi : i.opcode = .push
  · cases h with
    | push => exact (Memory.read_put hs (byte_lt_memSize _) a _).trans (if_neg ha)
    | _ => cases hi
  · rw [h.mem_eq hi]

end Completes

/-- Settles O35: by the results of a step; of the completing instructions PUSH alone writes memory. -/
theorem onlyPushWritesMemory : Obligations.OnlyPushWritesMemory := by
  intro v s t _ hwf h
  obtain ⟨⟨-, hfault⟩, hr⟩ := stepResult_of_step h
  cases hr with
  | raised | unknown => exact ⟨fun _ => rfl, fun _ _ => rfl⟩
  | @completed i _ hbytes hi =>
    refine ⟨fun hnot => hi.mem_eq fun hpush => ?_, fun _ ha => hi.read_mem hwf ha⟩
    have hread : s.mem.read s.pc = some (v.byte .push) := hpush ▸ State.read_pc_of_bytesAt hbytes
    exact hnot.elim (· hread) (· (hi.fault_eq.trans hfault))

end Sys2Proof.Machine
end

-- ==== Proofs: the step of the bytes at pc ====
section
/-! PROOFS. An enabled step runs the instruction whose bytes lie at `pc` (40_execution_loop.md R81, R83), and so, after a
PUSH, the byte just pushed where it lands there (20_memory.md R53, 43_stack.md R123). -/

namespace Sys2Proof

/-- A mnemonic's byte resolves to it, each mnemonic having a byte of its own (40_execution_loop.md R85). -/
theorem resolve_byte {v : OpcodeValue} (hv : v.Legal) (m : Opcode) : resolve v (v.byte m) = some m := by
  cases h : resolve v (v.byte m) with
  | none => exact absurd rfl (ne_byte_of_resolve_none h m)
  | some m' => exact congrArg some (hv.byte_inj.mp (eq_byte_of_resolve h)).symm

theorem takeOperands_operands (i : Instr) (opc : Byte) (rest : List Byte) :
    takeOperands i.opcode opc (i.operands ++ rest) = .ok (i, rest) := by
  cases i <;> rfl

theorem decode_encode {v : OpcodeValue} (hv : v.Legal) (i : Instr) (rest : List Byte) :
    decode v (encode v i ++ rest) = .ok (i, rest) := by
  rw [encode_eq_cons, List.cons_append]
  simp only [decode, resolve_byte hv, takeOperands_operands]

end Sys2Proof

namespace Sys2Proof.Machine

/-- A window of memory shows the cells a read answers, and ends where the reads do. -/
theorem Memory.getElem?_readBytes {m : Memory} {n a k : Nat} (hk : k < n) : (m.readBytes n a)[k]? = m.read (a + k) := by
  cases h : (m.readBytes n a)[k]? with
  | some b => exact (Memory.read_of_getElem?_readBytes h).symm
  | none =>
    rw [List.getElem?_eq_none_iff, Memory.length_readBytes] at h
    exact (Memory.read_of_ge (by omega)).symm

/-- The bytes of an instruction that lies at `pc` are the first that are fetched. -/
theorem State.encode_isPrefix_fetchBytes {s : State} {v : OpcodeValue} {i : Instr} (h : s.BytesAt s.pc (encode v i)) :
    encode v i <+: s.fetchBytes := by
  refine List.prefix_iff_getElem?.mpr fun k hk => ?_
  have hw : (encode v i).length ≤ maxWidth := length_encode v i ▸ i.opcode.width_le
  exact (Memory.getElem?_readBytes (hk.trans_le hw)).trans (h ⟨k, hk⟩)

theorem stepWith_of_bytesAt {v : OpcodeValue} {s : State} {i : Instr} (hv : v.Legal) (hs : s.Enabled)
    (h : s.BytesAt s.pc (encode v i)) : stepWith v s = exec i s := by
  obtain ⟨rest, hrest⟩ := State.encode_isPrefix_fetchBytes h
  exact stepWith_of_decoded hs (hrest ▸ decode_encode hv i rest)

/-- A well-formed instruction that lies at `pc` completes. -/
theorem completes_of_bytesAt {v : OpcodeValue} {s : State} {i : Instr} (hv : v.Legal) (hs : s.Enabled)
    (h : s.BytesAt s.pc (encode v i)) (hwf : i.wellFormed = true) : ∃ t, CompletesIn s i t ∧ stepWith v s = .next t := by
  rw [stepWith_of_bytesAt hv hs h]
  rcases exec_of_fits (State.fits_of_bytesAt h) with ⟨r, hr, -⟩ | ht
  · simp [hr.not_wellFormed] at hwf
  · exact ht

/-- An HLT byte at `pc` halts a started engine at the next address (41_basic.md R100). -/
theorem halts_of_read_hlt {v : OpcodeValue} {s : State} (hv : v.Legal) (hs : s.Enabled) (hstarted : s.started = true)
    (h : s.mem.read s.pc = some v.hlt) : ∃ u, stepWith v s = .next u ∧ u.Halted ∧ u.pc = s.pc + 1 := by
  have hbytes : s.BytesAt s.pc (encode v .hlt) := fun ⟨0, _⟩ => h
  exact ⟨_, stepWith_of_bytesAt hv hs hbytes, ⟨hstarted, rfl, hs.2⟩, rfl⟩

/-- A register index as an operand byte (30_encoding.md R63). -/
theorem toNat_ofNat_index (d : Fin Config.nreg) : (BitVec.ofNat 8 d).toNat = d :=
  Nat.mod_eq_of_lt (d.isLt.trans (by decide))

section Push
variable {s t : State} {d : Fin Config.nreg}

/-- After a PUSH the stack pointer is the address it stored to (43_stack.md R123). -/
theorem CompletesIn.sp_of_push {r : Byte} (h : CompletesIn s (.push r) t) : t.sp = pushAddress s := by
  cases h
  exact State.reg_setReg_same s Config.spIndex _

/-- The cell a PUSH stored to holds the named register, for R7 the decremented stack pointer (43_stack.md R120). -/
theorem CompletesIn.read_pushAddress (h : CompletesIn s (.push (BitVec.ofNat 8 d)) t) (hs : s.mem.wf) :
    t.mem.read (pushAddress s).toNat = some (if d = Config.spIndex then pushAddress s else s.reg d) := by
  cases h with
  | push hd =>
    obtain rfl := Fin.ext ((toNat_ofNat_index d).symm.trans hd)
    refine (Memory.read_put hs (byte_lt_memSize _) _ _).trans ?_
    rw [if_pos rfl, State.reg_setReg]

end Push

/-- Settles O40: the PUSH at `pc` completes, the cell it stored to holds the byte, and the next window and the next step
read that cell where it is at or just after the new `pc`. -/
theorem pushedByteIsFetchedByTheNextStep : Obligations.PushedByteIsFetchedByTheNextStep := by
  intro v s d b hv hwf hen hbytes hb
  have hreg : (Instr.push (BitVec.ofNat 8 d)).wellFormed = true :=
    decide_eq_true ((toNat_ofNat_index d).trans_lt d.isLt)
  obtain ⟨t, ht, hstep⟩ := completes_of_bytesAt (i := .push _) hv hen hbytes hreg
  have hpc : t.pc = s.pc + 2 := ht.pc_eq
  have hsp : t.reg 7 = s.reg 7 - 1 := ht.sp_of_push
  have hcell : t.mem.read (s.reg 7 - 1).toNat = some b := hb ▸ ht.read_pushAddress hwf
  refine ⟨t, hstep, hpc, hsp, hsp ▸ hcell, fun k hk hk' => ?_, fun hstarted hnext hhlt => ?_⟩
  · rw [hk', ← hpc] at hcell
    exact (Memory.getElem?_readBytes hk).trans hcell
  · rw [hnext, ← hpc, hhlt] at hcell
    have hrun : t.running = true := by simp [ht.running_eq, hen.1, Instr.opcode]
    obtain ⟨u, hu, hhalted, hupc⟩ :=
      halts_of_read_hlt hv ⟨hrun, ht.fault_eq.trans hen.2⟩ (ht.started_eq.trans hstarted) hcell
    exact ⟨u, hu, hhalted, by rw [hupc, hpc]⟩

end Sys2Proof.Machine
end

-- ==== Proofs: encoding ====
section
/-! PROOFS. The decoder and the encoder are inverse to each other, and an instruction's length is its opcode byte's alone
(30_encoding.md R60, R61, R65, R67). -/

namespace Sys2Proof

/-- An instruction is its opcode byte and its operand bytes, and that is its width (30_encoding.md R60). -/
theorem Instr.length_operands (i : Instr) : i.operands.length + 1 = i.opcode.width := by cases i <;> rfl

theorem decode_of_resolve {v : OpcodeValue} {opc : Byte} {m : Opcode} (h : resolve v opc = some m)
    (following : List Byte) : decode v (opc :: following) = takeOperands m opc following := by
  simp only [decode, h]

theorem decode_of_resolve_none {v : OpcodeValue} {opc : Byte} (h : resolve v opc = none) (following : List Byte) :
    decode v (opc :: following) = .error (.unknownOpcode opc) := by
  simp only [decode, h]

/-- Where the width is there, the opcode's instruction is taken, and exactly its width of bytes. -/
theorem takeOperands_of_width_le {m : Opcode} {following : List Byte} (opc : Byte)
    (h : m.width ≤ (opc :: following).length) :
    ∃ i : Instr, i.opcode = m ∧ takeOperands m opc following = .ok (i, (opc :: following).drop m.width) := by
  cases ht : takeOperands m opc following with
  | error e => exact absurd (takeOperands_error ht).1 (Nat.not_lt.mpr h)
  | ok p =>
    obtain ⟨i, rest⟩ := p
    obtain ⟨rfl, rfl⟩ := takeOperands_ok ht
    have hdrop : ((opc :: i.operands) ++ rest).drop i.opcode.width = rest := List.drop_left' i.length_operands
    exact ⟨i, rfl, by rw [← List.cons_append, hdrop]⟩

/-- Where fewer bytes are there than the width, an operand byte is missing. -/
theorem takeOperands_of_lt_width {m : Opcode} {following : List Byte} (opc : Byte)
    (h : (opc :: following).length < m.width) :
    ∃ k, takeOperands m opc following = .error (.missingOperand opc k) := by
  cases ht : takeOperands m opc following with
  | error e => exact ⟨_, congrArg _ (takeOperands_error ht).2⟩
  | ok p =>
    obtain ⟨rfl, rfl⟩ := takeOperands_ok ht
    have hwidth := p.1.length_operands
    simp only [List.length_cons, List.length_append] at h
    omega

/-- Settles O2: the opcode byte resolves to the instruction's mnemonic, and that mnemonic takes the operands back. -/
theorem decodeOfEncodeIsIdentity : Obligations.DecodeOfEncodeIsIdentity := fun _ hv => decode_encode hv

/-- Settles O3: a byte that resolves is its mnemonic's, and the operands taken are the instruction's. -/
theorem decodedBytesAreTheEncoding : Obligations.DecodedBytesAreTheEncoding := fun _ _ _ _ => eq_encode_of_decode

/-- Settles O1, by running the decoder on the eight words. -/
theorem sampleWordsDecode : Obligations.SampleWordsDecode := by
  unfold Obligations.SampleWordsDecode
  decide

/-- Settles O48: the mnemonic the opcode byte resolves to decides how many bytes are taken, and so whether there are
enough. -/
theorem lengthIsFixedByTheOpcodeByte : Obligations.LengthIsFixedByTheOpcodeByte := by
  refine ⟨rfl, fun v opc m following hm => ?_, fun _ _ following h => decode_of_resolve_none h following,
    Machine.State.unknown_pc⟩
  rw [decode_of_resolve hm]
  exact ⟨takeOperands_of_width_le opc, takeOperands_of_lt_width opc⟩

end Sys2Proof
end

-- ==== Proofs: the dispatch table ====
section
/-! PROOFS. The dispatch table as a whole (40_execution_loop.md R85). -/

namespace Sys2Proof

/-- A byte that is no mnemonic's resolves to nothing. -/
theorem resolve_of_ne_byte {v : OpcodeValue} {opc : Byte} (h : ∀ m : Opcode, opc ≠ v.byte m) : resolve v opc = none := by
  cases hm : resolve v opc with
  | none => rfl
  | some m => exact absurd (eq_byte_of_resolve hm) (h m)

/-- Settles O4: the keys by reading the table, `resolve` by its two lemmas, on a mnemonic's byte and on any other. -/
theorem dispatchTableHoldsExactlySix : Obligations.DispatchTableHoldsExactlySix := fun _ hv =>
  ⟨rfl, resolve_byte hv, fun _ => resolve_of_ne_byte⟩

end Sys2Proof
end

-- ==== Proofs: the execution loop ====
section
/-! PROOFS. One round of the loop: when it has a next state, and what that is where the bytes at `pc` are an instruction,
where the fetch fails, where the opcode is unknown, and where the operands leave memory (40_execution_loop.md R81 to R86). -/

namespace Sys2Proof.Machine

theorem stepWith_of_stuck {v : OpcodeValue} {s : State} {f : Fault} (h : s.stuck = some f) : stepWith v s = .fault f := by
  simp only [stepWith, h]

/-- An enabled step has a next state: no decode error and no handler ends otherwise. -/
theorem exists_step {v : OpcodeValue} {s : State} (hs : s.Enabled) : ∃ t, stepWith v s = .next t := by
  cases hd : decode v s.fetchBytes with
  | error e => exact ⟨_, stepWith_of_undecoded hs hd⟩
  | ok p =>
    rw [stepWith_of_decoded hs hd]
    rcases exec_of_fits (State.fits_of_bytesAt (State.bytesAt_of_decode hd)) with ⟨r, -, h⟩ | ⟨t, -, h⟩
    · exact ⟨_, h⟩
    · exact ⟨t, h⟩

/-- Settles O15: an enabled step goes on, and each of the three other states has its own reason for none. -/
theorem stepIsEnabledExactlyWhileRunning : Obligations.StepIsEnabledExactlyWhileRunning := by
  refine fun v s => ⟨⟨fun ⟨t, h⟩ => (stepWith_cases h).1, exists_step⟩,
    fun h => stepWith_of_stuck (State.Faulted.stuck_eq h), fun ⟨hstarted, hrun, hfault⟩ => stepWith_of_stuck ?_,
    fun hstarted hrun hfault => stepWith_of_stuck ?_⟩
  · simp [State.stuck, hstarted, hrun, hfault]
  · simp [State.stuck, hstarted, hrun, hfault]

/-- Settles O8: the instruction whose bytes lie at `pc` is the decoded one; the core's step is `stepWith` at the default map,
which is legal. -/
theorem stepRunsTheDecodedInstruction : Obligations.StepRunsTheDecodedInstruction :=
  ⟨fun _ _ _ => stepWith_of_bytesAt, fun _ _ => stepWith_of_bytesAt (v := .default) (by decide)⟩

section Undecoded
variable {v : OpcodeValue} {s : State}

/-- The record AddressOutOfRange leaves, with the byte at `pc` as its opcode (10_state.md R31). -/
theorem State.raiseAddress_eq (s : State) (a : Nat) :
    s.raiseAddress a = s.stoppedBy (addressRecord s.pc (s.mem.read s.pc) a) := rfl

/-- A fetch outside memory raises (40_execution_loop.md R82). -/
theorem stepWith_of_memSize_le_pc (hs : s.Enabled) (h : Config.memSize ≤ s.pc) :
    stepWith v s = .next (s.stoppedBy (addressRecord s.pc none s.pc)) := by
  have hread : s.mem.read s.pc = none := Memory.read_of_ge h.not_gt
  have hdecode : decode v s.fetchBytes = .error .noOpcode := by rw [fetchBytes_of_none hread]; rfl
  rw [stepWith_of_undecoded hs hdecode, State.undecoded, State.raiseAddress_eq, hread]

/-- An unknown opcode is skipped (40_execution_loop.md R84). -/
theorem stepWith_of_unknown {opc : Byte} (hs : s.Enabled) (hread : s.mem.read s.pc = some opc)
    (hne : ∀ m : Opcode, opc ≠ v.byte m) : stepWith v s = .next (s.unknown opc) := by
  refine stepWith_of_undecoded hs (e := .unknownOpcode opc) ?_
  rw [fetchBytes_of_read hread, decode_of_resolve_none (resolve_of_ne_byte hne)]

/-- A known opcode whose operand bytes do not all lie in memory raises at the first address outside it
(40_execution_loop.md R83): no instruction lies at `pc`, and the opcode is not unknown. -/
theorem stepWith_of_overrun {m : Opcode} (hv : v.Legal) (hs : s.Enabled) (hread : s.mem.read s.pc = some (v.byte m))
    (hover : Config.memSize < s.pc + m.width) :
    stepWith v s = .next (s.stoppedBy (addressRecord s.pc (some (v.byte m)) Config.memSize)) := by
  have hnot {i : Instr} (hbytes : s.BytesAt s.pc (encode v i)) : False := by
    have hfits := State.fits_of_bytesAt hbytes
    rw [opcode_eq_of_bytesAt hv hbytes hread] at hfits
    exact Nat.not_lt.mpr hfits hover
  obtain ⟨t, ht⟩ := exists_step (v := v) hs
  obtain ⟨-, hr⟩ := stepResult_of_step ht
  rw [ht, ← hread]
  cases hr with
  | unknown hread' hne => exact absurd (Option.some.inj (hread'.symm.trans hread)) (hne m)
  | completed hbytes => exact (hnot hbytes).elim
  | raised he =>
    cases he with
    | fetch hend => exact absurd (Memory.lt_of_read hread) (Nat.not_lt.mpr hend)
    | operand => rfl
    | register hbytes => exact (hnot hbytes).elim

end Undecoded

/-- Settles O9: the window begins with the cell at `pc`, and the fetch outside memory raises. -/
theorem fetchReadsTheOpcodeOrRaises : Obligations.FetchReadsTheOpcodeOrRaises := fun _ _ =>
  ⟨List.head?_eq_getElem?.trans (Memory.getElem?_readBytes (by decide)), stepWith_of_memSize_le_pc⟩

/-- Settles O10: the opcode is skipped, which leaves the step enabled, and from 255 the next fetch is at 256. -/
theorem unknownOpcodeIsSkippedWithAnEvent : Obligations.UnknownOpcodeIsSkippedWithAnEvent := by
  refine fun v s opc hs hread hne => ⟨s.unknown opc, stepWith_of_unknown hs hread hne, rfl, fun hpc => ?_⟩
  have hnext : (s.unknown opc).pc = 256 := congrArg (· + 1) hpc
  have hstep := stepWith_of_memSize_le_pc (v := v) (s := s.unknown opc) hs hnext.ge
  rwa [hnext] at hstep

/-- Settles O11, which is the rule for a known opcode that runs past the end of memory. -/
theorem operandReadPastMemoryRaises : Obligations.OperandReadPastMemoryRaises := fun _ _ _ => stepWith_of_overrun

/-- Every meaning begins with the check of its operand addresses (40_execution_loop.md R86); HLT's has none to check. -/
theorem exec_eq_withOperandBytes (i : Instr) (s : State) : ∃ k, exec i s = withOperandBytes i.opcode.width s k := by
  cases i with
  | hlt => exact ⟨execHlt s, rfl⟩
  | _ => exact ⟨_, rfl⟩

/-- Settles O12: the check of the operand addresses comes first, and 256 is the first address that fails it. -/
theorem handlerRaisesBeforeItLooksAtRegisters : Obligations.HandlerRaisesBeforeItLooksAtRegisters := by
  intro i s hpc hover
  obtain ⟨k, hexec⟩ := exec_eq_withOperandBytes i s
  have hlast : 256 ≤ s.pc + (i.opcode.width - 1) := by omega
  rw [hexec, withOperandBytes_overrun hpc hlast, State.raiseAddress_eq]

end Sys2Proof.Machine
end

-- ==== Proofs: what a step sees of memory ====
section
/-! PROOFS. A step other than a PUSH or a POP depends on memory only through the bytes of its own width
(40_execution_loop.md R83, the spec's decision D7). -/

namespace Sys2Proof.Machine

/-- The second outcome is the first with memory replaced by `m'`, where the first is a next state. -/
def SameUpToMemory (m' : Memory) (o o' : Host.Outcome State Fault Refusal) : Prop :=
  ∀ t, o = .next t → o' = .next (t.setMem m')

theorem SameUpToMemory.next {m' : Memory} {s t : State} (h : t = s.setMem m') : SameUpToMemory m' (.next s) (.next t) := by
  rintro _ ⟨⟩
  rw [h]

section Replaced
variable {m' : Memory} {s : State}

/-- A record names the byte at `pc` and no other cell (10_state.md R31). -/
theorem State.raise_setMem (h : m'.read s.pc = s.mem.read s.pc) (k : Kind) (a : Option Nat) (r : Option Byte) :
    (s.setMem m').raise k a r = (s.raise k a r).setMem m' := by
  simp only [State.raise, State.record, State.emitDiag, State.setMem, h]

/-- The operand check sees `pc`, and of memory the byte a record names. -/
theorem SameUpToMemory.withOperandBytes {k k' : Host.Outcome State Fault Refusal} (h : m'.read s.pc = s.mem.read s.pc)
    (hk : SameUpToMemory m' k k') (w : Nat) :
    SameUpToMemory m' (withOperandBytes w s k) (withOperandBytes w (s.setMem m') k') := by
  unfold Machine.withOperandBytes
  rw [State.setMem_pc]
  cases firstBadOperand s.pc (w - 1) with
  | some a => exact .next (State.raise_setMem h _ _ _)
  | none => exact hk

/-- The register check sees the operand byte, and of memory the byte a record names. -/
theorem SameUpToMemory.withRegister {k k' : Fin Config.nreg → Host.Outcome State Fault Refusal}
    (h : m'.read s.pc = s.mem.read s.pc) (hk : ∀ d, SameUpToMemory m' (k d) (k' d)) (r : Byte) :
    SameUpToMemory m' (withRegister r s k) (withRegister r (s.setMem m') k') := by
  unfold Machine.withRegister
  cases registerIndex r with
  | none => exact .next (State.raise_setMem h _ _ _)
  | some d => exact hk d

/-- The meanings of HLT, LDI, PRN and MUL see no memory cell but the byte a record names. -/
theorem exec_setMem {i : Instr} (h : m'.read s.pc = s.mem.read s.pc) (hpush : i.opcode ≠ .push)
    (hpop : i.opcode ≠ .pop) :
    SameUpToMemory m' (exec i s) (exec i (s.setMem m')) := by
  cases i with
  | hlt => exact .next rfl
  | ldi r b => exact .withOperandBytes h (.withRegister h (fun _ => .next rfl) r) 3
  | prn r => exact .withOperandBytes h (.withRegister h (fun _ => .next rfl) r) 2
  | mul a b =>
    exact .withOperandBytes h (.withRegister h (fun _ => .withRegister h (fun _ => .next rfl) b) a) 3
  | push r => exact absurd rfl hpush
  | pop r => exact absurd rfl hpop

end Replaced

/-- Where the width of a known opcode fits in memory, one of its instructions lies at `pc`. -/
theorem exists_bytesAt_of_fits {v : OpcodeValue} {s : State} {m : Opcode} (hv : v.Legal)
    (hread : s.mem.read s.pc = some (v.byte m)) (hfits : s.pc + m.width ≤ Config.memSize) :
    ∃ i : Instr, i.opcode = m ∧ s.BytesAt s.pc (encode v i) := by
  have hlen : m.width ≤ (v.byte m :: s.mem.readBytes 2 (s.pc + 1)).length := by
    have : m.width ≤ 3 := m.width_le
    rw [List.length_cons, Memory.length_readBytes]
    omega
  obtain ⟨i, hi, htake⟩ := takeOperands_of_width_le _ hlen
  rw [← decode_of_resolve (resolve_byte hv m), ← fetchBytes_of_read hread] at htake
  exact ⟨i, hi, State.bytesAt_of_decode htake⟩

/-- A known opcode other than PUSH and POP: a memory that agrees on its width holds the same instruction, or the step raises
on both. -/
theorem stepWith_setMem {v : OpcodeValue} {s : State} {m' : Memory} {m : Opcode} (hv : v.Legal) (hs : s.Enabled)
    (hpush : m ≠ .push) (hpop : m ≠ .pop) (hread : s.mem.read s.pc = some (v.byte m))
    (hagree : ∀ k, k < m.width → m'.read (s.pc + k) = s.mem.read (s.pc + k)) :
    SameUpToMemory m' (stepWith v s) (stepWith v (s.setMem m')) := by
  have hpc : m'.read s.pc = s.mem.read s.pc := hagree 0 m.width_pos
  rcases Nat.lt_or_ge Config.memSize (s.pc + m.width) with hover | hfits
  · rw [stepWith_of_overrun hv hs hread hover, stepWith_of_overrun (s := s.setMem m') hv hs (hpc.trans hread) hover]
    exact .next rfl
  · obtain ⟨i, rfl, hbytes⟩ := exists_bytesAt_of_fits hv hread hfits
    have hbytes' : (s.setMem m').BytesAt s.pc (encode v i) := fun k =>
      (hagree k (k.isLt.trans_eq (length_encode v i))).trans (hbytes k)
    rw [stepWith_of_bytesAt hv hs hbytes, stepWith_of_bytesAt (s := s.setMem m') hv hs hbytes']
    exact exec_setMem hpc hpush hpop

/-- Settles O38: a known opcode by the lemma above; an unknown one and a failed fetch have one next state each, which no
cell but the opcode's enters. -/
theorem stepSeesOnlyItsOwnBytes : Obligations.StepSeesOnlyItsOwnBytes := by
  intro v s t m' h
  have hs : s.Enabled := (stepWith_cases h).1
  refine ⟨fun m hv hpush hpop hread hagree => stepWith_setMem hv hs hpush hpop hread hagree t h,
    fun opc hne hread hread' => ?_, fun hpc => ?_⟩
  · cases h.symm.trans (stepWith_of_unknown hs hread hne)
    exact stepWith_of_unknown (s := s.setMem m') hs hread' hne
  · cases h.symm.trans (stepWith_of_memSize_le_pc hs hpc)
    exact stepWith_of_memSize_le_pc (s := s.setMem m') hs hpc

end Sys2Proof.Machine
end

-- ==== Proofs: the end of a run ====
section
/-! PROOFS. Every run ends, and where (40_execution_loop.md R88, R89); and the one run an engine admits (R80, the spec's
decisions D10 and D12). -/

namespace Sys2Proof.Machine

/-- Once started, a state with no step is one of the two final ones (40_execution_loop.md R88). -/
theorem State.final_of_not_enabled {s : State} (hs : s.started = true) (h : ¬ s.Enabled) : s.Halted ∨ s.Faulted := by
  by_cases hf : s.fault = none
  · exact .inl ⟨hs, Bool.eq_false_iff.mpr fun hrun => h ⟨hrun, hf⟩, hf⟩
  · exact .inr hf

theorem runLoop_of_not_enabled {v : OpcodeValue} {s : State} (h : ¬ s.Enabled) (n : Nat) : runLoop v n s = s := by
  obtain ⟨f, hf⟩ := Option.ne_none_iff_exists'.mp (mt stuck_eq_none.mp h)
  exact runLoop_of_stuck hf n

/-- A step that does not raise begins inside memory and moves `pc` on (10_state.md R25). -/
theorem pc_lt_of_step {v : OpcodeValue} {s t : State} (h : stepWith v s = .next t) (ht : t.Enabled) :
    s.pc < Config.memSize ∧ s.pc < t.pc := by
  obtain ⟨-, hr⟩ := stepResult_of_step h
  cases hr with
  | raised => exact nomatch ht.2
  | unknown hread => exact ⟨Memory.lt_of_read hread, Nat.lt_succ_self _⟩
  | completed hbytes hi =>
    exact ⟨Memory.lt_of_read (State.read_pc_of_bytesAt hbytes), hi.pc_eq ▸ Nat.lt_add_of_pos_right (Opcode.width_pos _)⟩

/-- One step for each address from `pc` to the end of memory, and one for the fetch outside it, end a run. -/
theorem final_of_runLoop {v : OpcodeValue} {n : Nat} {s : State} (hs : s.started = true) (hn : Config.memSize - s.pc < n) :
    (runLoop v n s).Halted ∨ (runLoop v n s).Faulted := by
  induction n generalizing s with
  | zero => exact absurd hn (Nat.not_lt_zero _)
  | succ n ih =>
    by_cases hen : s.Enabled
    · obtain ⟨t, hstep⟩ := exists_step (v := v) hen
      have ht : t.started = true := (growsTo_of_step hstep).started.trans hs
      rw [runLoop_next hstep]
      by_cases hent : t.Enabled
      · have hpc := pc_lt_of_step hstep hent
        exact ih ht (by omega)
      · rw [runLoop_of_not_enabled hent]
        exact State.final_of_not_enabled ht hent
    · rw [runLoop_of_not_enabled hen]
      exact State.final_of_not_enabled hs hen

/-- Settles O41: 257 is more than the addresses from any `pc` to the end of memory. -/
theorem everyRunEndsWithin257Steps : Obligations.EveryRunEndsWithin257Steps := fun _ s hs =>
  final_of_runLoop hs (Nat.lt_succ_of_le (Nat.sub_le Config.memSize s.pc))

/-- A step that clears `running` ran the HLT just before the new `pc` (41_basic.md R100). -/
theorem read_hlt_of_step {v : OpcodeValue} {s t : State} (h : stepWith v s = .next t) (hrun : t.running = false) :
    ∃ a, t.pc = a + 1 ∧ t.mem.read a = some v.hlt := by
  obtain ⟨⟨hrun', -⟩, hr⟩ := stepResult_of_step h
  cases hr with
  | raised | unknown => exact absurd (hrun'.symm.trans hrun) nofun
  | completed hbytes hi =>
    have hread := State.read_pc_of_bytesAt hbytes
    cases hi with
    | hlt => exact ⟨s.pc, rfl, hread⟩
    | _ => exact absurd (hrun'.symm.trans hrun) nofun

/-- Settles O42: by induction on the steps; the last one is the one that leaves no step enabled. -/
theorem haltedRunStoppedAtAnHlt : Obligations.HaltedRunStoppedAtAnHlt := by
  intro v n s _ hen hend
  induction n generalizing s with
  | zero => exact absurd (hen.1.symm.trans hend.2.1) nofun
  | succ n ih =>
    obtain ⟨t, hstep⟩ := exists_step (v := v) hen
    rw [runLoop_next hstep] at hend ⊢
    by_cases hent : t.Enabled
    · exact ih t hent hend
    · rw [runLoop_of_not_enabled hent] at hend ⊢
      exact read_hlt_of_step hstep hend.2.1

section Admission
variable {v : OpcodeValue} {e : Session}

/-- A started engine admits no run (40_execution_loop.md R80). -/
theorem Session.run_of_started (h : e.engine.started = true) : e.run v = .error .secondRun := by
  simp only [Session.run, h, if_true]

/-- A started engine admits no load (10_state.md R34). -/
theorem Session.load_of_started (h : e.engine.started = true) (image : List Byte) :
    e.load image = .error .loadAfterRun := by
  simp only [Session.load, h, if_true]

variable (hs : e.engine.started = false) (hp : e.phase ≠ .loadFailed)
include hs hp

/-- An admitted run that ends with no fault record replies halted. -/
theorem Session.run_of_fault_none (h : (runLoop v runBound e.engine.start).fault = none) :
    e.run v = .ok ({ e with engine := runLoop v runBound e.engine.start }, .halted) := by
  simp [Session.run, hs, hp, h]

/-- An admitted run that ends with a fault record replies the record. -/
theorem Session.run_of_fault_some {r : Event} (h : (runLoop v runBound e.engine.start).fault = some r) :
    e.run v = .ok ({ e with engine := runLoop v runBound e.engine.start }, .faulted r) := by
  simp [Session.run, hs, hp, h]

end Admission

/-- Settles O46: the run ends in a final state, whose fault record decides the reply, and it leaves the engine started. -/
theorem runIsAdmittedOnce : Obligations.RunIsAdmittedOnce := by
  intro v e hs hp
  have hfinal := everyRunEndsWithin257Steps v e.engine.start rfl
  obtain ⟨-, -, hstarted, -⟩ := tracesOnlyGrowAlongARun v runBound e.engine.start
  cases hfault : (runLoop v runBound e.engine.start).fault with
  | none =>
    exact ⟨_, _, Session.run_of_fault_none hs hp hfault, rfl, .inl ⟨rfl, hfinal.resolve_right (· hfault)⟩,
      fun _ => Session.run_of_started hstarted, Session.load_of_started hstarted⟩
  | some r =>
    exact ⟨_, _, Session.run_of_fault_some hs hp hfault, rfl, .inr ⟨r, rfl, hfault⟩,
      fun _ => Session.run_of_started hstarted, Session.load_of_started hstarted⟩

end Sys2Proof.Machine
end

-- ==== Proofs: HLT, LDI and PRN ====
section
/-! PROOFS. What HLT, LDI and PRN do where they complete and where they raise (41_basic.md R100 to R102), and what the forms
that store nothing leave unchanged (60_exceptions.md R136, the spec's decision D4, where they raise). -/

namespace Sys2Proof.Machine

section Raises
variable {i : Instr} {s : State} {r opc : Byte}

/-- Where the operand bytes do not all lie in memory, the meaning raises with the byte at `pc` as its opcode, which is there
(40_execution_loop.md R83, R86). -/
theorem exec_of_overrun (hread : s.mem.read s.pc = some opc) (hover : Config.memSize < s.pc + i.opcode.width) :
    exec i s = .next (s.stoppedBy (addressRecord s.pc (some opc) Config.memSize)) :=
  hread ▸ handlerRaisesBeforeItLooksAtRegisters i s (Memory.lt_of_read hread) hover

/-- Where the operand bytes lie in memory, the first of them is checked next; it is a register of every instruction that has
one (30_encoding.md R61, R63). -/
theorem exec_eq_withRegister (hop : i.operands[0]? = some r) (hfits : s.pc + i.opcode.width ≤ Config.memSize) :
    ∃ k, exec i s = withRegister r s k := by
  cases i with
  | hlt => cases hop
  | _ =>
    obtain rfl := Option.some.inj hop
    exact ⟨_, withOperandBytes_of_le (by decide) hfits⟩

/-- A first register operand of 8 or more raises (60_exceptions.md R132). -/
theorem exec_of_badFirstRegister (hread : s.mem.read s.pc = some opc) (hop : i.operands[0]? = some r)
    (hfits : s.pc + i.opcode.width ≤ Config.memSize) (hr : Config.nreg ≤ r.toNat) :
    exec i s = .next (s.stoppedBy (registerRecord s.pc (some opc) r)) := by
  obtain ⟨k, hexec⟩ := exec_eq_withRegister hop hfits
  rw [hexec, withRegister_of_ge hr, ← hread]
  rfl

/-- Operand bytes that do not all lie in memory raise, wherever `pc` is (40_execution_loop.md R83). -/
theorem withOperandBytes_of_gt {w : Nat} (hw : 1 < w) (hover : Config.memSize < s.pc + w)
    (k : Host.Outcome State Fault Refusal) : ∃ a, withOperandBytes w s k = .next (s.raiseAddress a) := by
  unfold withOperandBytes
  cases hbad : firstBadOperand s.pc (w - 1) with
  | some a => exact ⟨a, rfl⟩
  | none =>
    have hlast : s.pc + (w - 1) ∈ List.range' (s.pc + 1) (w - 1) := List.mem_range'_1.mpr (by omega)
    have hlt : s.pc + (w - 1) < Config.memSize := by simpa using List.find?_eq_none.mp hbad _ hlast
    omega

/-- Every instruction but HLT has an operand byte (30_encoding.md R60). -/
theorem one_lt_width_of_ne_hlt (hi : i ≠ .hlt) : 1 < i.opcode.width := by
  cases i with
  | hlt => exact absurd rfl hi
  | _ => exact Nat.one_lt_succ_succ _

/-- The inversion of a meaning in any state: a fatal condition, or the state in which the instruction completes. -/
theorem stopped_or_completesIn_of_exec {t : State} (h : exec i s = .next t) :
    (∃ e, t = s.stoppedBy e) ∨ CompletesIn s i t := by
  rcases Nat.lt_or_ge Config.memSize (s.pc + i.opcode.width) with hover | hfits
  · by_cases hhlt : i = .hlt
    · subst hhlt
      cases h
      exact .inr .hlt
    · obtain ⟨k, hexec⟩ := exec_eq_withOperandBytes i s
      obtain ⟨a, ha⟩ := withOperandBytes_of_gt (one_lt_width_of_ne_hlt hhlt) hover k
      cases h.symm.trans (hexec.trans ha)
      exact .inl ⟨_, rfl⟩
  · rcases exec_of_fits hfits with ⟨r, -, hr⟩ | ⟨u, hu, hexec⟩
    · cases h.symm.trans hr
      exact .inl ⟨_, rfl⟩
    · cases h.symm.trans hexec
      exact .inr hu

end Raises

/-- The registers an instruction writes where it completes: its destination, and the stack pointer for PUSH and POP. -/
def WritesRegister (d : Fin Config.nreg) : Instr → Prop
  | .hlt => False
  | .ldi r _ => r.toNat = d
  | .prn _ => False
  | .mul a _ => a.toNat = d
  | .push _ => d = Config.spIndex
  | .pop r => r.toNat = d ∨ d = Config.spIndex

/-- A completing instruction leaves every register it does not write. -/
theorem CompletesIn.reg_eq {i : Instr} {s t : State} (h : CompletesIn s i t) {d : Fin Config.nreg}
    (hd : ¬ WritesRegister d i) : t.reg d = s.reg d := by
  have other {e : Fin Config.nreg} {r : Byte} (he : r.toNat = e) (hr : r.toNat ≠ d) : d ≠ e := fun h => hr (h ▸ he)
  cases h with
  | hlt | prn => rfl
  | ldi he | mul he => exact (s.reg_setReg _ d _).trans (if_neg (other he hd))
  | push => exact (s.reg_setReg _ d _).trans (if_neg hd)
  | pop he =>
    obtain ⟨hr, hsp⟩ := not_or.mp hd
    refine (State.reg_setReg _ _ d _).trans ?_
    rw [if_neg hsp, State.reg_setReg, if_neg (other he hr)]

/-- Settles O23: where the instruction raises, only the record and its event change; where it completes, each field by the
rule for that field of a completing instruction, and a well-formed one in memory completes. -/
theorem frameOfTheNonStoringInstructions : Obligations.FrameOfTheNonStoringInstructions := by
  intro i s t hpush hexec
  have hrecord (hwf : i.wellFormed = true) (hfits : s.pc + i.opcode.width ≤ 256) :
      t.fault = s.fault ∧ t.diag = s.diag := by
    obtain ⟨u, hu, -, hfault, hdiag⟩ := wellFormedInstructionCompletes i s hwf hfits
    cases hexec.symm.trans hu
    exact ⟨hfault, hdiag⟩
  rcases stopped_or_completesIn_of_exec hexec with ⟨e, rfl⟩ | h
  · exact ⟨fun _ => rfl, fun _ _ => rfl, rfl, fun _ => rfl, fun _ => rfl, hrecord⟩
  · refine ⟨fun _ => by rw [h.mem_eq hpush], fun d hd => h.reg_eq ?_, h.started_eq,
      fun hhlt => by simp [h.running_eq, hhlt], h.out_eq, hrecord⟩
    cases i with
    | hlt | prn => exact not_false
    | ldi | mul => exact hd
    | push => exact absurd rfl hpush
    | pop => exact not_or.mpr hd

/-- Settles O16: HLT makes no check, so its meaning is its next state; once started that state is halted. -/
theorem hltStopsTheLoop : Obligations.HltStopsTheLoop := by
  refine fun v s => ⟨rfl, rfl, fun hstarted hfault => ?_⟩
  obtain ⟨-, -, hhalted, -⟩ := stepIsEnabledExactlyWhileRunning v { s with running := false, pc := s.pc + 1 }
  exact hhalted ⟨hstarted, rfl, hfault⟩

/-- Settles O17: both checks pass where LDI completes; at 255 and at 254 the first address outside memory is 256. -/
theorem ldiLoadsItsImmediate : Obligations.LdiLoadsItsImmediate := by
  refine fun v r i s => ⟨rfl, fun d hd hpc => ?_, fun hread => ⟨fun hpc => ?_, fun hpc => ?_, fun hpc hr => ?_⟩⟩
  · exact (withOperandBytes_of_le (by decide) hpc).trans (withRegister_index hd s _)
  · rw [exec_of_overrun (i := .ldi r i) hread (show 256 < s.pc + 3 by omega), hpc]
  · rw [exec_of_overrun (i := .ldi r i) hread (show 256 < s.pc + 3 by omega), hpc]
  · exact exec_of_badFirstRegister hread rfl hpc hr

/-- Settles O18: both checks pass where PRN completes; at 255 its operand address is 256. -/
theorem prnEmitsTheRegister : Obligations.PrnEmitsTheRegister := by
  refine fun v r s => ⟨rfl, fun d hd hpc => ?_, fun hread => ⟨fun hpc => ?_, fun hpc hr => ?_⟩⟩
  · exact (withOperandBytes_of_le (by decide) hpc).trans (withRegister_index hd s _)
  · exact exec_of_overrun (i := .prn r) hread (show 256 < s.pc + 2 by omega)
  · exact exec_of_badFirstRegister hread rfl hpc hr

end Sys2Proof.Machine
end

-- ==== Proofs: the ALU and MUL ====
section
/-! PROOFS. The ALU's product as a number (42_alu.md R111), and MUL where it completes and where it raises (42_alu.md R112). -/

namespace Sys2Proof.Machine

/-- 16 bits hold the product of two bytes exactly, so only the cut to 8 bits reduces it. -/
theorem product_eq (u v : Byte) : product u v = BitVec.ofNat 8 (u.toNat * v.toNat % 256) := by
  have hlt : u.toNat * v.toNat < 2 ^ 8 * 2 ^ 8 := Nat.mul_lt_mul'' u.isLt v.isLt
  have hexact : (u.setWidth 16 * v.setWidth 16).toNat = u.toNat * v.toNat := by
    rw [BitVec.toNat_mul, BitVec.toNat_setWidth_of_le (by decide), BitVec.toNat_setWidth_of_le (by decide)]
    exact Nat.mod_eq_of_lt hlt
  apply BitVec.eq_of_toNat_eq
  rw [product, BitVec.toNat_setWidth, hexact, BitVec.toNat_ofNat, Nat.mod_mod]

/-- Settles O29: the written value by the lemma on the product; the operands are those of the state before the write. -/
theorem aluMultiplyTruncates : Obligations.AluMultiplyTruncates := fun d e s k => by
  rw [aluApply_multiply, product_eq]
  rfl

/-- Where the operand bytes lie in memory and the first index is in range, MUL checks its second index next. -/
theorem exec_mul_of_firstRegister {a b : Byte} {d : Fin Config.nreg} {s : State} (hd : a.toNat = d)
    (hfits : s.pc + 3 ≤ Config.memSize) :
    exec (.mul a b) s = withRegister b s fun e => aluApply .multiply d e s fun t => .next (t.advance 3) :=
  (withOperandBytes_of_le (by decide) hfits).trans (withRegister_index hd s _)

/-- Settles O19: the ALU's rule where the checks pass; at 255 and at 254 the first address outside memory is 256; the second
index is checked once the first is in range. -/
theorem mulStoresTheProductModulo256 : Obligations.MulStoresTheProductModulo256 := by
  refine fun v a b s => ⟨rfl, fun d e hd he hpc => ?_,
    fun hread => ⟨fun hpc => ?_, fun hpc ha => ?_, fun hpc ha hb => ?_⟩⟩
  · rw [exec_mul_of_firstRegister hd hpc, withRegister_index he, aluMultiplyTruncates]
    rfl
  · exact exec_of_overrun (i := .mul a b) hread (show 256 < s.pc + 3 by omega)
  · exact exec_of_badFirstRegister hread rfl hpc ha
  · rw [exec_mul_of_firstRegister (d := ⟨a.toNat, ha⟩) rfl hpc, withRegister_of_ge hb, ← hread]
    rfl

end Sys2Proof.Machine
end

-- ==== Proofs: PUSH and POP ====
section
/-! PROOFS. What PUSH and POP do where they complete and where they raise, what PUSH leaves unchanged, and the round trip of
a PUSH and the POP that follows it (43_stack.md R120 to R122). -/

namespace Sys2Proof.Machine

/-- An operand byte that names a register is that index (30_encoding.md R63). -/
theorem eq_ofNat_index {r : Byte} {d : Fin Config.nreg} (h : r.toNat = d) : r = BitVec.ofNat 8 d :=
  BitVec.eq_of_toNat_eq (h.trans (toNat_ofNat_index d).symm)

/-- An operand byte that names a register is legal (30_encoding.md R66). -/
theorem registerOperandOk_of_index {r : Byte} {d : Fin Config.nreg} (h : r.toNat = d) : registerOperandOk r = true :=
  decide_eq_true (h.trans_lt d.isLt)

/-- A well-formed instruction whose bytes lie in memory completes. -/
theorem completes_of_fits {i : Instr} {s : State} (hwf : i.wellFormed = true)
    (hfits : s.pc + i.opcode.width ≤ Config.memSize) : ∃ t, CompletesIn s i t ∧ exec i s = .next t := by
  rcases exec_of_fits hfits with ⟨r, hr, -⟩ | h
  · exact absurd hwf (by simp [hr.not_wellFormed])
  · exact h

section Completes
variable {i : Instr} {s t : State}

/-- HLT alone ends a run (10_state.md R26). -/
theorem CompletesIn.running_eq_of_ne_hlt (h : CompletesIn s i t) (hi : i.opcode ≠ .hlt) : t.running = s.running := by
  simp [h.running_eq, hi]

/-- After an instruction other than HLT the next step is enabled. -/
theorem CompletesIn.enabled (h : CompletesIn s i t) (hi : i.opcode ≠ .hlt) (hs : s.Enabled) : t.Enabled :=
  ⟨(h.running_eq_of_ne_hlt hi).trans hs.1, h.fault_eq.trans hs.2⟩

/-- Bytes that a PUSH would not store over lie in memory after any completing instruction. -/
theorem CompletesIn.bytesAt (h : CompletesIn s i t) (hs : s.mem.wf) {a : Nat} {bs : List Byte} (hbytes : s.BytesAt a bs)
    (hout : ∀ k < bs.length, a + k ≠ (pushAddress s).toNat) : t.BytesAt a bs := fun k =>
  (h.read_mem hs (hout k k.isLt)).trans (hbytes k)

/-- PUSH sets the stack pointer to the address it stores to, and no other register. -/
theorem CompletesIn.x_of_push {r : Byte} (h : CompletesIn s (.push r) t) :
    t.x = s.x.set Config.spIndex (pushAddress s) := by
  cases h
  rfl

end Completes

/-- Bytes in a row, cut in two. -/
theorem State.bytesAt_append {s : State} {a : Nat} {bs cs : List Byte} (h : s.BytesAt a (bs ++ cs)) :
    s.BytesAt a bs ∧ s.BytesAt (a + bs.length) cs := by
  refine ⟨fun k => State.read_of_bytesAt h ?_, fun k => ?_⟩
  · rw [List.getElem?_append_left k.isLt]
    exact List.getElem?_eq_getElem k.isLt
  · rw [Nat.add_assoc]
    refine State.read_of_bytesAt h ?_
    rw [List.getElem?_append_right (Nat.le_add_right _ _), Nat.add_sub_cancel_left]
    exact List.getElem?_eq_getElem k.isLt

/-- Settles O20: a PUSH of a register in range completes, and the fields of its state are those of a completing PUSH; at 255
its operand address is 256. -/
theorem pushStoresBelowTheStackPointer : Obligations.PushStoresBelowTheStackPointer := by
  refine fun v r s hwf => ⟨rfl, fun d hd hpc => ?_, fun hread => ⟨fun hpc => ?_, fun hpc hr => ?_⟩⟩
  · obtain ⟨t, ht, hexec⟩ := completes_of_fits (i := .push r) (registerOperandOk_of_index hd) hpc
    obtain rfl := eq_ofNat_index hd
    refine ⟨t, hexec, ht.x_of_push, fun a => ?_, ht.pc_eq, ht.running_eq_of_ne_hlt nofun, ht.fault_eq, ht.out_eq nofun,
      ht.diag_eq, ht.started_eq⟩
    split
    · next ha => exact ha ▸ ht.read_pushAddress hwf
    · next ha => exact ht.read_mem hwf ha
  · exact exec_of_overrun (i := .push r) hread (show 256 < s.pc + 2 by omega)
  · exact exec_of_badFirstRegister hread rfl hpc hr

/-- The state after a POP that loads `b` into `x[d]`: the stack pointer is incremented as the load left it, so that a load to
R7 is what is incremented (43_stack.md R121, the spec's decision D18). -/
def State.popped (s : State) (d : Fin Config.nreg) (b : Byte) : State :=
  ((s.setReg d b).setReg Config.spIndex ((s.setReg d b).sp + 1#8)).advance 2

section Popped
variable {s : State} {d : Fin Config.nreg} {b : Byte}

/-- POP of a register in range. -/
theorem exec_pop_of_index {r : Byte} (hd : r.toNat = d) (hfits : s.pc + 2 ≤ Config.memSize)
    (hread : s.mem.read s.sp.toNat = some b) : exec (.pop r) s = .next (s.popped d b) := by
  refine (withOperandBytes_of_le (by decide) hfits).trans ((withRegister_index hd s _).trans ?_)
  simp only [memRead, hread, State.popped]

/-- A load to a register other than R7 leaves the stack pointer. -/
theorem State.sp_setReg_of_ne (hd : d ≠ Config.spIndex) : (s.setReg d b).sp = s.sp := by
  rw [State.sp_eq, State.reg_setReg, if_neg hd.symm, State.sp_eq]

/-- A POP of R7 keeps the loaded byte plus 1, whatever the stack pointer was. -/
theorem State.popped_spIndex : s.popped Config.spIndex b = (s.setReg Config.spIndex (b + 1#8)).advance 2 := by
  rw [State.popped, State.sp_eq, State.reg_setReg_same]
  simp [State.setReg]

/-- The registers after a POP of another register than R7. -/
theorem State.reg_popped (hd : d ≠ Config.spIndex) (e : Fin Config.nreg) :
    (s.popped d b).reg e = if e = Config.spIndex then s.sp + 1#8 else if e = d then b else s.reg e := by
  rw [← State.sp_setReg_of_ne hd, ← State.reg_setReg, ← State.reg_setReg]
  rfl

end Popped

/-- Settles O21: the rule for a POP of a register in range, where the load is to R7 or leaves it; at 255 its operand address
is 256. -/
theorem popLoadsThenIncrements : Obligations.PopLoadsThenIncrements := by
  refine fun v r s => ⟨rfl, fun d b hd hpc hread => ?_, fun hread => ⟨fun hpc => ?_, fun hpc hr => ?_⟩⟩
  · rw [exec_pop_of_index hd hpc hread]
    split
    · next h7 =>
      subst h7
      exact congrArg _ State.popped_spIndex
    · next h7 =>
      rw [State.popped, State.sp_setReg_of_ne h7]
      rfl
  · exact exec_of_overrun (i := .pop r) hread (show 256 < s.pc + 2 by omega)
  · exact exec_of_badFirstRegister hread rfl hpc hr

/-- Settles O24: where PUSH raises, only the record and its event change; where it completes, each field by the rule for that
field of a completing instruction, and a PUSH of a register in range completes. -/
theorem frameOfPush : Obligations.FrameOfPush := by
  intro r s t hwf hexec
  have hrecord (hr : r.toNat < 8) (hpc : s.pc + 1 < 256) : t.fault = s.fault ∧ t.diag = s.diag := by
    obtain ⟨u, hu, hexec'⟩ := completes_of_fits (i := .push r) (decide_eq_true hr) hpc
    cases hexec.symm.trans hexec'
    exact ⟨hu.fault_eq, hu.diag_eq⟩
  rcases stopped_or_completesIn_of_exec hexec with ⟨e, rfl⟩ | h
  · exact ⟨fun _ _ => rfl, fun _ _ => rfl, rfl, rfl, rfl, hrecord⟩
  · exact ⟨fun _ => h.read_mem hwf, fun _ => h.reg_eq, h.running_eq_of_ne_hlt nofun, h.started_eq, h.out_eq nofun, hrecord⟩

/-- Settles O39: the PUSH completes and leaves the POP's bytes, the POP then loads the byte just pushed, and the increment
undoes the decrement. -/
theorem pushThenPopMovesTheByte : Obligations.PushThenPopMovesTheByte := by
  intro v s d e hv hwf hen hd he hbytes hopcode hoperand
  obtain ⟨hpush, hpop⟩ := State.bytesAt_append (bs := encode v (.push (BitVec.ofNat 8 d)))
    (cs := encode v (.pop (BitVec.ofNat 8 e))) hbytes
  obtain ⟨t, ht, hstep⟩ := completes_of_bytesAt hv hen hpush (registerOperandOk_of_index (toNat_ofNat_index d))
  have hpc : t.pc = s.pc + 2 := ht.pc_eq
  have hent : t.Enabled := ht.enabled nofun hen
  have hsp : t.sp = pushAddress s := ht.sp_of_push
  have hcell : t.mem.read (pushAddress s).toNat = some (s.reg d) := (ht.read_pushAddress hwf).trans (by rw [if_neg hd])
  have hpop' : t.BytesAt t.pc (encode v (.pop (BitVec.ofNat 8 e))) := by
    rw [hpc]
    refine ht.bytesAt hwf hpop fun k hk => ?_
    match k, hk with
    | 0, _ => exact hopcode.symm
    | 1, _ => exact hoperand.symm
  have hexec := exec_pop_of_index (toNat_ofNat_index e) (State.fits_of_bytesAt hpop') (hsp ▸ hcell)
  have hframe (f : Fin 8) (hf : f ≠ e) : (t.popped e (s.reg d)).reg f = s.reg f := by
    rw [State.reg_popped he, if_neg hf]
    split
    · next h7 =>
      rw [hsp, h7]
      exact BitVec.sub_add_cancel _ _
    · next h7 => exact ht.reg_eq h7
  refine ⟨t, t.popped e (s.reg d), hstep, (stepWith_of_bytesAt hv hent hpop').trans hexec, ?_, hframe 7 he.symm, hcell,
    hframe, congrArg (· + 2) hpc, hent.2⟩
  rw [State.reg_popped he, if_neg he, if_pos rfl]

end Sys2Proof.Machine
end

-- ==== Proofs: exceptions ====
section
/-! PROOFS. The failure taxonomy (60_exceptions.md R130 to R139): which condition a step raises, with what record, and that
it raises at most one; and the load that fails. -/

namespace Sys2Proof.Machine

section Raises
variable {v : OpcodeValue} {i : Instr} {s : State} {r opc : Byte}

/-- Where the operand bytes lie in memory, the first index out of range raises (60_exceptions.md R132, 42_alu.md R112). -/
theorem exec_of_findsBadRegister (hread : s.mem.read s.pc = some opc) (hfits : s.pc + i.opcode.width ≤ Config.memSize)
    (h : FindsBadRegister i r) : exec i s = .next (s.stoppedBy (registerRecord s.pc (some opc) r)) := by
  obtain ⟨hr, hfirst | ⟨a, rfl, ha⟩⟩ := h
  · exact exec_of_badFirstRegister hread hfirst hfits hr
  · rw [exec_mul_of_firstRegister (d := ⟨a.toNat, ha⟩) rfl hfits, withRegister_of_ge hr, ← hread]
    rfl

/-- An instruction at `pc` whose checks find an index out of range raises with its own opcode byte. -/
theorem stepWith_of_findsBadRegister (hv : v.Legal) (hs : s.Enabled) (hbytes : s.BytesAt s.pc (encode v i))
    (h : FindsBadRegister i r) :
    stepWith v s = .next (s.stoppedBy (registerRecord s.pc (some (v.byte i.opcode)) r)) :=
  (stepWith_of_bytesAt hv hs hbytes).trans
    (exec_of_findsBadRegister (State.read_pc_of_bytesAt hbytes) (State.fits_of_bytesAt hbytes) h)

end Raises

/-- Settles O13: each raising clause is an instruction whose checks find the index, as the first operand or as MUL's second;
a well-formed instruction completes, which leaves the fault record. -/
theorem registerIndexOfEightOrMoreRaises : Obligations.RegisterIndexOfEightOrMoreRaises := by
  intro v s hv hs
  have raises (i : Instr) (r : Byte) (hbytes : s.BytesAt s.pc (encode v i)) (h : FindsBadRegister i r) :=
    stepWith_of_findsBadRegister hv hs hbytes h
  refine ⟨fun r b hbytes hr => ?ldi, fun r hbytes hr => ?prn, fun r hbytes hr => ?push, fun r hbytes hr => ?pop,
    fun a b hbytes ha => ?first, fun a b hbytes ha hb => ?second, fun i hbytes hwf => ?wellFormed⟩
  case ldi => exact raises (.ldi r b) r hbytes ⟨hr, .inl rfl⟩
  case prn => exact raises (.prn r) r hbytes ⟨hr, .inl rfl⟩
  case push => exact raises (.push r) r hbytes ⟨hr, .inl rfl⟩
  case pop => exact raises (.pop r) r hbytes ⟨hr, .inl rfl⟩
  case first => exact raises (.mul a b) a hbytes ⟨ha, .inl rfl⟩
  case second => exact raises (.mul a b) b hbytes ⟨hb, .inr ⟨a, rfl, ha⟩⟩
  case wellFormed =>
    obtain ⟨t, ht, hstep⟩ := completes_of_bytesAt hv hs hbytes hwf
    exact ⟨t, hstep, ht.fault_eq.trans hs.2⟩

/-- The guard of the ALU (42_alu.md R110). -/
theorem aluApply_other (code : Nat) (d e : Fin Config.nreg) (s : State)
    (k : State → Host.Outcome State Fault Refusal) : aluApply (.other code) d e s k = .next s.raiseUnsupported := rfl

/-- Settles O30: the guard raises on the state it is given, and the record of a step is one of the three of a precise
condition, all of another kind. -/
theorem unsupportedOperationIsGuardedAndUnreachable : Obligations.UnsupportedOperationIsGuardedAndUnreachable := by
  refine ⟨aluApply_other, fun v s t e h he => ?_⟩
  obtain ⟨-, -, -, ⟨-, hkind, -⟩ | ⟨-, -, hkind, -⟩ | ⟨hkind, -⟩⟩ := fatalConditionIsPrecise v s t e h he
  all_goals exact hkind ▸ nofun

/-- Settles O37: each of the three results of a step is one of the three cases. -/
theorem atMostOneEventPerStep : Obligations.AtMostOneEventPerStep := by
  intro v s t h
  obtain ⟨⟨-, hfault⟩, hr⟩ := stepResult_of_step h
  cases hr with
  | completed _ hi => exact .inl ⟨hi.fault_eq.trans hfault, hi.diag_eq⟩
  | @unknown opc hread hne => exact .inr (.inl ⟨hfault, opc, hread, hne, rfl⟩)
  | @raised e he => exact .inr (.inr ⟨e, rfl, rfl⟩)

/-- Settles O14: HLT checks nothing; another instruction raises where its operand bytes leave memory, and where they do not
it raises on a register index or completes. -/
theorem everyInstructionHasANextState : Obligations.EveryInstructionHasANextState := by
  intro i s
  by_cases hhlt : i = .hlt
  · subst hhlt
    exact ⟨_, rfl⟩
  rcases Nat.lt_or_ge Config.memSize (s.pc + i.opcode.width) with hover | hfits
  · obtain ⟨k, hexec⟩ := exec_eq_withOperandBytes i s
    obtain ⟨a, ha⟩ := withOperandBytes_of_gt (one_lt_width_of_ne_hlt hhlt) hover k
    exact ⟨_, hexec.trans ha⟩
  · rcases exec_of_fits hfits with ⟨r, -, hr⟩ | ⟨t, -, ht⟩
    · exact ⟨_, hr⟩
    · exact ⟨t, ht⟩

/-- Settles O31: by the five kinds. -/
theorem causeCodesFollowTheTaxonomy : Obligations.CauseCodesFollowTheTaxonomy := by
  refine ⟨rfl, fun k => ?_⟩
  cases k <;> decide

/-- A load that fails writes nothing (60_exceptions.md R137). -/
theorem Session.load_construct_oversize {image : List Byte} (h : Config.maxProgram < image.length) :
    Session.construct.load image = .ok (⟨State.reset, .loadFailed⟩, .programTooLarge image.length) := by
  simp [Session.load, Session.construct, State.reset, h]

/-- A failed load admits no run (60_exceptions.md R137). -/
theorem Session.run_of_loadFailed {v : OpcodeValue} {e : Session} (hs : e.engine.started = false)
    (hp : e.phase = .loadFailed) : e.run v = .error .runAfterFailedLoad := by
  simp [Session.run, hs, hp]

/-- Settles O45: the failed load leaves the reset engine, not started, in the phase that admits neither. -/
theorem oversizeImageFailsTheLoad : Obligations.OversizeImageFailsTheLoad := fun _ h =>
  ⟨_, Session.load_construct_oversize h, rfl, fun _ => Session.run_of_loadFailed rfl rfl,
    Session.load_of_phase_ne rfl nofun⟩

end Sys2Proof.Machine
end

-- ==== Proofs: construction ====
section
/-! PROOFS. What construction establishes (70_reset_and_hazards.md R160). -/

namespace Sys2Proof.Machine

/-- The memory of a constructed engine lists no cell, so every address inside it reads 0 (10_state.md R20). -/
theorem Memory.read_reset {a : Nat} (h : a < Config.memSize) : State.reset.mem.read a = some 0#8 :=
  Memory.read_of_lt h

/-- The register file of a constructed engine: R7 is the stack pointer, the others are 0 (10_state.md R20). -/
theorem State.reg_reset (d : Fin Config.nreg) : State.reset.reg d = if d = Config.spIndex then 0xF4#8 else 0#8 := by
  revert d
  decide

/-- Settles O5: memory and the registers by the two lemmas above, the dispatch table by the rule for a mnemonic's byte; the
other fields are those that construction writes out. -/
theorem constructionResetsEveryElement : Obligations.ConstructionResetsEveryElement :=
  ⟨rfl, fun _ => Memory.read_reset, State.reg_reset, rfl, rfl, rfl, rfl, rfl, rfl, fun _ => resolve_byte⟩

/-- Settles O6: nothing runs, no fault is recorded and `diag` is empty, so beyond the empty memory and `pc` 0 there is nothing
to check. -/
theorem resetMeetsTheInvariant : Obligations.ResetMeetsTheInvariant where
  memory := Memory.reset_wf
  pcBound := Nat.zero_le _
  begun := nofun
  faulted := nofun
  soft := fun _ => nofun
  before := fun h => absurd rfl h

end Sys2Proof.Machine
end
